-- ==== Sys2Proof/Word.lean ====
section
/-! DEFINITION. The byte and the data types of 10_state.md part 1: Tag, StepSlot, Step, Metadata; and the command word's
fields of 30_encoding.md part 2 as types. Types only: every function over them stands in Decode.lean or under Machine/. -/

namespace Sys2Proof

/-- 20_memory.md R51: the addressable unit is the byte of 8 bits. -/
abbrev Byte := BitVec 8

/-- The variant tag of a StepSlot, four names in two bits (10_state.md R24). -/
inductive Tag where
  | timedColorStep
  | rawQuadWord
  | reservedC
  | reservedD
deriving DecidableEq, Repr

/-- A StepSlot in raw form, the pair `(tag, pay)` (10_state.md R24). -/
structure StepSlot where
  tag : Tag
  pay : BitVec 64
deriving DecidableEq, Repr

/-- TimedColorStep: eight one-byte fields in declared order (10_state.md R21). The CORE gives none of them a meaning. -/
structure TimedColorStep where
  opcodeTarget : Byte
  repeats : Byte
  red : Byte
  green : Byte
  blue : Byte
  onTime : Byte
  offTime : Byte
  padding : Byte
deriving DecidableEq, Repr

/-- A Step of a defined variant (10_state.md R20 to R22). Reserved C and D have names only (R23), so they are tags and no Step. -/
inductive Step where
  | timedColor (f : TimedColorStep)
  | rawQuad (value : BitVec 64)
deriving DecidableEq, Repr

/-- Metadata, `meta[0]` to `meta[7]` (10_state.md R27). -/
structure Metadata where
  m0 : Byte
  m1 : Byte
  m2 : Byte
  m3 : Byte
  m4 : Byte
  m5 : Byte
  m6 : Byte
  m7 : Byte
deriving DecidableEq, Repr

/-- The four widths of the Value Encoder: a four-valued type, so that no other width can be written (30_encoding.md R90). -/
inductive Width where
  | w1
  | w2
  | w4
  | w8
deriving DecidableEq, Repr

/-- A legal command word, read (30_encoding.md R76 to R78): the unit and its argument. -/
inductive Command where
  | venc (w : Width)
  | renc (t : Tag)
  | asm (n : BitVec 4)
  | frame (n : BitVec 4)
deriving DecidableEq, Repr

end Sys2Proof
end

