-- ==== Sys2Proof/Config.lean ====
section
/-! DEFINITION. The constants the source fixes (00_scope.md R6). None is configurable. The spec leaves no value open to a
free value; its two open parameters, T_OP and N_INST (R7), enter no rule and no definition (log entry 7). -/

namespace Sys2Proof.Config

/-- REC_LEN: the encoded length of every Step in bytes (00_scope.md R6). -/
@[simp] abbrev recLen : Nat := 8
/-- NSTEPS: the number of StepSlots in a Packet (00_scope.md R6). -/
@[simp] abbrev nSteps : Nat := 7
/-- PKT_LEN: the length of the encoded Packet (00_scope.md R6). -/
@[simp] abbrev pktLen : Nat := 64
/-- META_OFF: the buffer offset of Metadata byte 0 (00_scope.md R6). -/
@[simp] abbrev metaOff : Nat := 56
/-- CSUM_OFF: the buffer offset of the checksum's high byte (00_scope.md R6). -/
@[simp] abbrev csumOff : Nat := 62
/-- CSUM_SPAN: the number of buffer bytes summed, offsets 0 to 61 (00_scope.md R6). -/
@[simp] abbrev csumSpan : Nat := 62
/-- The number of byte registers of VOUT (10_state.md R30). -/
@[simp] abbrev voutLen : Nat := 8
/-- The largest step count the 4-bit field N can carry (00_scope.md R7, N_BITS). -/
@[simp] abbrev maxSteps : Nat := 15

end Sys2Proof.Config
end

