-- ==== Sys2Proof/Syntax.lean ====
section
/-! DEFINITION. Instr: the ten operations of spec/opcode_table.json and 30_encoding.md R85, one constructor per row, with
the operands of R79. The step count N of ASM and FRAME is the length of the step list (30_encoding.md R91, R94). -/

namespace Sys2Proof

/-- One request's operation and its operands (30_encoding.md R79, R85). -/
inductive Instr where
  /-- VENC1 v (40_value_encoder.md R101). -/
  | venc1 (v : BitVec 8)
  /-- VENC2 v (40_value_encoder.md R102). -/
  | venc2 (v : BitVec 16)
  /-- VENC4 v (40_value_encoder.md R103). -/
  | venc4 (v : BitVec 32)
  /-- VENC8 v (40_value_encoder.md R104). -/
  | venc8 (v : BitVec 64)
  /-- RENC.TCS pay (41_record_encoder.md R111). -/
  | rencTcs (pay : BitVec 64)
  /-- RENC.RQW pay (41_record_encoder.md R112). -/
  | rencRqw (pay : BitVec 64)
  /-- RENC.C pay (41_record_encoder.md R113). -/
  | rencC (pay : BitVec 64)
  /-- RENC.D pay (41_record_encoder.md R114). -/
  | rencD (pay : BitVec 64)
  /-- ASM steps, meta (42_packet_assembler.md R120). -/
  | asm (steps : List StepSlot) (md : Metadata)
  /-- FRAME steps, meta (43_checksum_framer.md R130). -/
  | frame (steps : List StepSlot) (md : Metadata)
deriving DecidableEq, Repr

end Sys2Proof
end

