-- ==== Sys2Proof/WellFormed.lean ====
section
/-! DEFINITION. Which instructions a request can carry. The operands' types leave one thing to check: N is a 4-bit field, so
a step list has at most fifteen slots (00_scope.md R7, 30_encoding.md R78). Counts other than 7 are well formed: they are
requests, and they lead to InvalidStepCount. -/

namespace Sys2Proof

/-- The step count fits the command word's 4-bit field N. -/
def countFits (steps : List StepSlot) : Bool := decide (steps.length ≤ Config.maxSteps)

/-- The instruction can be written as a request. -/
def Instr.wellFormed : Instr → Bool
  | .venc1 _ => true
  | .venc2 _ => true
  | .venc4 _ => true
  | .venc8 _ => true
  | .rencTcs _ => true
  | .rencRqw _ => true
  | .rencC _ => true
  | .rencD _ => true
  | .asm steps _ => countFits steps
  | .frame steps _ => countFits steps

end Sys2Proof
end

