-- ==== Sys2Proof/Decode.lean ====
section
/-! DEFINITION. The request format: the command word (30_encoding.md R76 to R78, R85, R89), the decoder from a request's
bytes, total and refusing by name, and the encoder. The command word is the spec's; how the operands lie in bytes after it
is the model's own, since the spec leaves it open (00_scope.md R14; DESIGN CHOICE, log entry 1): in the order of R79, each
integer in its own number of bytes, least significant byte first, a slot's tag in one byte before its payload. -/

namespace Sys2Proof

/-! ### The command word -/

/-- UNIT, `CMD[7:6]` (30_encoding.md R76). -/
def cmdUnit (c : Byte) : BitVec 2 := c.extractLsb' 6 2
/-- RSV, `CMD[5:4]` (30_encoding.md R76). -/
def cmdRsv (c : Byte) : BitVec 2 := c.extractLsb' 4 2
/-- ARG, `CMD[3:0]`: the step count N of UNIT 2 and 3 (30_encoding.md R76, R78). -/
def cmdArg (c : Byte) : BitVec 4 := c.extractLsb' 0 4
/-- `ARG[3:2]`, zero for UNIT 0 and 1 (30_encoding.md R77). -/
def cmdArgHi (c : Byte) : BitVec 2 := c.extractLsb' 2 2
/-- `ARG[1:0]`: the width code of UNIT 0, the variant tag of UNIT 1 (30_encoding.md R77). -/
def cmdArgLo (c : Byte) : BitVec 2 := c.extractLsb' 0 2

/-- The variant a two-bit tag names (10_state.md R24). -/
def Tag.ofBits (t : BitVec 2) : Tag :=
  if t = 0#2 then .timedColorStep
  else if t = 1#2 then .rawQuadWord
  else if t = 2#2 then .reservedC
  else .reservedD

/-- A variant's two-bit tag (10_state.md R24). -/
def Tag.bits : Tag → BitVec 2
  | .timedColorStep => 0#2
  | .rawQuadWord => 1#2
  | .reservedC => 2#2
  | .reservedD => 3#2

/-- The width a width code selects, `2^WC` bytes (30_encoding.md R77). -/
def Width.ofCode (wc : BitVec 2) : Width :=
  if wc = 0#2 then .w1
  else if wc = 1#2 then .w2
  else if wc = 2#2 then .w4
  else .w8

/-- A width's code WC (30_encoding.md R77). -/
def Width.code : Width → BitVec 2
  | .w1 => 0#2
  | .w2 => 1#2
  | .w4 => 2#2
  | .w8 => 3#2

/-- A width in bytes (00_scope.md R6, W_SET). -/
def Width.bytes : Width → Nat
  | .w1 => 1
  | .w2 => 2
  | .w4 => 4
  | .w8 => 8

/-- Reading a command word; `none` for a reserved one (30_encoding.md R76 to R78, R89). -/
def decodeCommand (c : Byte) : Option Command :=
  if cmdRsv c ≠ 0#2 then none
  else if cmdUnit c = 0#2 then
    if cmdArgHi c ≠ 0#2 then none else some (.venc (Width.ofCode (cmdArgLo c)))
  else if cmdUnit c = 1#2 then
    if cmdArgHi c ≠ 0#2 then none else some (.renc (Tag.ofBits (cmdArgLo c)))
  else if cmdUnit c = 2#2 then some (.asm (cmdArg c))
  else some (.frame (cmdArg c))

/-- The word of a command, UNIT then RSV then ARG (30_encoding.md R85). -/
def Command.word : Command → Byte
  | .venc w => 0#2 ++ 0#2 ++ (0#2 ++ w.code)
  | .renc t => 1#2 ++ 0#2 ++ (0#2 ++ t.bits)
  | .asm n => 2#2 ++ 0#2 ++ n
  | .frame n => 3#2 ++ 0#2 ++ n

/-! ### Operands in bytes (the model's layout, log entry 1) -/

/-- The first `n` bytes as a number, least significant byte first, and the bytes after them. -/
def takeValue : Nat → List Byte → Option (Nat × List Byte)
  | 0, bs => some (0, bs)
  | _ + 1, [] => none
  | n + 1, b :: bs =>
    match takeValue n bs with
    | some (x, rest) => some (b.toNat + 256 * x, rest)
    | none => none

/-- A number in `n` bytes, least significant byte first. -/
def putValue : Nat → Nat → List Byte
  | 0, _ => []
  | n + 1, x => BitVec.ofNat 8 x :: putValue n (x / 256)

/-- `n` StepSlots: each a tag byte, of which the low two bits are the tag, and eight payload bytes. -/
def takeSlots : Nat → List Byte → Option (List StepSlot × List Byte)
  | 0, bs => some ([], bs)
  | _ + 1, [] => none
  | n + 1, t :: bs =>
    match takeValue 8 bs with
    | none => none
    | some (pay, rest) =>
      match takeSlots n rest with
      | none => none
      | some (slots, rest') => some (⟨Tag.ofBits (t.extractLsb' 0 2), BitVec.ofNat 64 pay⟩ :: slots, rest')

/-- One StepSlot in bytes. -/
def slotBytes (s : StepSlot) : List Byte := (0#6 ++ s.tag.bits) :: putValue 8 s.pay.toNat

/-- The eight Metadata bytes, `meta[0]` first. -/
def takeMetadata : List Byte → Option (Metadata × List Byte)
  | m0 :: m1 :: m2 :: m3 :: m4 :: m5 :: m6 :: m7 :: rest => some (⟨m0, m1, m2, m3, m4, m5, m6, m7⟩, rest)
  | _ => none

/-- Metadata as its byte sequence (10_state.md R27). -/
def Metadata.bytes (m : Metadata) : List Byte := [m.m0, m.m1, m.m2, m.m3, m.m4, m.m5, m.m6, m.m7]

/-- The slots and the Metadata of an ASM or FRAME request (30_encoding.md R79). -/
def takePacket (n : Nat) (bs : List Byte) : Option ((List StepSlot × Metadata) × List Byte) :=
  match takeSlots n bs with
  | none => none
  | some (slots, rest) =>
    match takeMetadata rest with
    | none => none
    | some (md, rest') => some ((slots, md), rest')

/-- The value operand of a VENC of each width (30_encoding.md R79, R80). -/
def takeVenc (w : Width) (bs : List Byte) : Option (Instr × List Byte) :=
  match takeValue w.bytes bs with
  | none => none
  | some (v, rest) =>
    match w with
    | .w1 => some (.venc1 (BitVec.ofNat 8 v), rest)
    | .w2 => some (.venc2 (BitVec.ofNat 16 v), rest)
    | .w4 => some (.venc4 (BitVec.ofNat 32 v), rest)
    | .w8 => some (.venc8 (BitVec.ofNat 64 v), rest)

/-- The payload operand of a RENC of each variant (30_encoding.md R79). -/
def takeRenc (t : Tag) (bs : List Byte) : Option (Instr × List Byte) :=
  match takeValue 8 bs with
  | none => none
  | some (pay, rest) =>
    match t with
    | .timedColorStep => some (.rencTcs (BitVec.ofNat 64 pay), rest)
    | .rawQuadWord => some (.rencRqw (BitVec.ofNat 64 pay), rest)
    | .reservedC => some (.rencC (BitVec.ofNat 64 pay), rest)
    | .reservedD => some (.rencD (BitVec.ofNat 64 pay), rest)

/-- A command's operands; `none` when the request's bytes end before them (30_encoding.md R79). -/
def takeOperands (c : Command) (bs : List Byte) : Option (Instr × List Byte) :=
  match c with
  | .venc w => takeVenc w bs
  | .renc t => takeRenc t bs
  | .asm n =>
    match takePacket n.toNat bs with
    | some ((slots, md), rest) => some (.asm slots md, rest)
    | none => none
  | .frame n =>
    match takePacket n.toNat bs with
    | some ((slots, md), rest) => some (.frame slots md, rest)
    | none => none

/-! ### The decoder and the encoder -/

/-- What the decoder answers on a request's bytes: an instruction and the bytes after its last operand, which are no part of
the request and are ignored as R80 of 30_encoding.md ignores operand bits above an operand's width; or a refusal by name. -/
inductive Decoded where
  /-- The request carries this instruction. -/
  | instr (i : Instr) (rest : List Byte)
  /-- The command word is reserved (30_encoding.md R89); the operands are not looked at. -/
  | reservedWord (c : Byte)
  /-- The bytes end before the command's operands do: the host did not supply every operand (60_exceptions.md R167). -/
  | operandMissing (c : Command)
  /-- There is no command word. -/
  | noCommand
deriving DecidableEq, Repr

/-- The decoder, total on any bytes. -/
def decode : List Byte → Decoded
  | [] => .noCommand
  | c :: bs =>
    match decodeCommand c with
    | none => .reservedWord c
    | some cmd =>
      match takeOperands cmd bs with
      | some (i, rest) => .instr i rest
      | none => .operandMissing cmd

/-- The command of an instruction (30_encoding.md R85). -/
def Instr.command : Instr → Command
  | .venc1 _ => .venc .w1
  | .venc2 _ => .venc .w2
  | .venc4 _ => .venc .w4
  | .venc8 _ => .venc .w8
  | .rencTcs _ => .renc .timedColorStep
  | .rencRqw _ => .renc .rawQuadWord
  | .rencC _ => .renc .reservedC
  | .rencD _ => .renc .reservedD
  | .asm steps _ => .asm (BitVec.ofNat 4 steps.length)
  | .frame steps _ => .frame (BitVec.ofNat 4 steps.length)

/-- An instruction's operands in bytes, in the order of 30_encoding.md R79. -/
def Instr.operandBytes : Instr → List Byte
  | .venc1 v => putValue 1 v.toNat
  | .venc2 v => putValue 2 v.toNat
  | .venc4 v => putValue 4 v.toNat
  | .venc8 v => putValue 8 v.toNat
  | .rencTcs pay => putValue 8 pay.toNat
  | .rencRqw pay => putValue 8 pay.toNat
  | .rencC pay => putValue 8 pay.toNat
  | .rencD pay => putValue 8 pay.toNat
  | .asm steps md => steps.flatMap slotBytes ++ md.bytes
  | .frame steps md => steps.flatMap slotBytes ++ md.bytes

/-- The bytes of a well-formed instruction's request: the command word, then the operands. -/
def encode (i : Instr) : List Byte := i.command.word :: i.operandBytes

/-- How many bytes a command's operands take. -/
def Command.operandLength : Command → Nat
  | .venc w => w.bytes
  | .renc _ => 8
  | .asm n => 9 * n.toNat + 8
  | .frame n => 9 * n.toNat + 8

/-- The longest request: a command word, fifteen slots, eight Metadata bytes. -/
def maxRequestLength : Nat := 144

/-- A row of the opcode table in a request's bytes: the command word is the table's bits, and every byte after it is 0. -/
def tableBytes (nbits w : Nat) : List Byte := putValue maxRequestLength (w % 2 ^ nbits)

/-- The instruction the decoder reads from the table's bits `w`. -/
def decodeTableWord (nbits w : Nat) : Option Instr :=
  match decode (tableBytes nbits w) with
  | .instr i _ => some i
  | .reservedWord _ => none
  | .operandMissing _ => none
  | .noCommand => none

end Sys2Proof
end

