-- ==== Sys2Proof/Machine/State.lean ====
section
/-! DEFINITION. State: every register of a CORE instance (10_state.md R29 to R42), the response of the last request, and the
host's side of the interface as plain data; its value after reset; the reasons a step can stop. -/

namespace Sys2Proof.Machine

/-- A byte-addressed space of the instance (20_memory.md R50): the offsets that hold a value, each with its byte, offsets
strictly rising. An offset that is not listed holds no value (10_state.md R36). -/
abbrev Memory := List Host.Cell

/-- The three result registers, each with its valid flag (10_state.md R30 to R32, R35). -/
inductive ResultReg where
  | vout
  | record
  | buf
deriving DecidableEq, Repr

/-- The three error kinds (60_exceptions.md R150 to R154). `expected` is no part of one: it is fixed by the kind
(00_scope.md R12). -/
inductive CoreError where
  | malformedRecord (actual : Nat)
  | invalidStepCount (actual : Nat)
  | illegalCommand
deriving DecidableEq, Repr

/-- A response, `Ok(bytes)` or `Err(kind, expected, actual)` (00_scope.md R13). -/
inductive Response where
  | ok (bytes : List Byte)
  | err (e : CoreError)
deriving DecidableEq, Repr

/-- The registers the host can read between operations (10_state.md R29), a byte register by its offset. -/
inductive HostReg where
  | vout (k : Nat)
  | vlen
  | record (k : Nat)
  | buf (k : Nat)
  | err
  | valid
deriving DecidableEq, Repr

/-- What the host can do to the instance between operations (60_exceptions.md R167, 70_reset_and_hazards.md R180): issue a
request, given as its bytes; read a register; reset. -/
inductive Input where
  | request (bytes : List Byte)
  | read (r : HostReg)
  | reset
deriving DecidableEq, Repr

/-- The state of one CORE instance and its host interface. -/
structure State where
  /-- VOUT (10_state.md R30). -/
  vout : Memory
  /-- VLEN, or no value (10_state.md R30, R43). -/
  vlen : Option (BitVec 4)
  /-- REC (10_state.md R31). -/
  record : Memory
  /-- BUF (10_state.md R32, 20_memory.md R52). -/
  buf : Memory
  /-- ERR (10_state.md R34). -/
  err : BitVec 8
  /-- VALID (10_state.md R35). -/
  valid : BitVec 8
  /-- MCOPY, hidden (10_state.md R40). -/
  mcopy : Metadata
  /-- ACC, hidden (10_state.md R41). -/
  acc : BitVec 16
  /-- OFF, hidden (10_state.md R42). -/
  off : BitVec 7
  /-- The response to the last request since reset, if there was one (00_scope.md R13, 60_exceptions.md R170). -/
  response : Option Response
  /-- The byte the host last read since reset, if it read one (the model's own field, log entry 6). -/
  readData : Option Byte
  /-- What the host does from here on, first input first (the model's own field, log entry 5). -/
  inputs : List Input
deriving DecidableEq, Repr

/-- Why the model stops with a fault. No instruction does: only a host read can. -/
inductive Fault where
  /-- A host read of a register that holds no value (60_exceptions.md R163: it is a fault of the model; 10_state.md R36).
  Raised by `hostRead`, and by no operation. Safe: the model stops where the spec gives the read no result. -/
  | noValue
  /-- A host read at an offset the register does not have (20_memory.md R50). Raised by `hostRead`. Safe. -/
  | noSuchOffset
deriving DecidableEq, Repr

/-- Why the model does not accept an input. -/
inductive Refusal where
  /-- An instruction without a meaning yet, by its mnemonic. Raised by an arm of `exec`; no arm does. Safe. -/
  | notModelled (mnemonic : String)
  /-- A request whose bytes end before its operands do, where 60_exceptions.md R167 has the host supply every operand.
  Raised by `serve`. Safe: the spec gives such a request no effect. -/
  | operandMissing
  /-- A request of no bytes at all: it has no command word (30_encoding.md R76). Raised by `serve`. Safe. -/
  | noCommandWord
deriving DecidableEq, Repr

/-- The instance right after reset (10_state.md R43, 70_reset_and_hazards.md R180). The spec gives VALID and ERR, and no
value in VOUT, VLEN, REC and BUF; for the hidden registers, which it leaves unspecified, the zeros are the model's
(DESIGN CHOICE, log entry 2). No input is given yet (log entry 5). -/
def State.reset : State where
  vout := []
  vlen := none
  record := []
  buf := []
  err := 0x00#8
  valid := 0x00#8
  mcopy := ⟨0, 0, 0, 0, 0, 0, 0, 0⟩
  acc := 0x0000#16
  off := 0#7
  response := none
  readData := none
  inputs := []

end Sys2Proof.Machine
end

