-- ==== Sys2Proof/Machine/Flags.lean ====
section
/-! DEFINITION. The fields of ERR (10_state.md R34) and the flags of VALID (R35): how each is read, composed, set and
cleared. There are no other flags (R35). -/

namespace Sys2Proof.Machine

/-- The code of an error kind in `ERR.CODE` (10_state.md R34, 60_exceptions.md R150). -/
def CoreError.code : CoreError → BitVec 2
  | .malformedRecord _ => 1#2
  | .invalidStepCount _ => 2#2
  | .illegalCommand => 3#2

/-- What an error leaves in `ERR.ACTUAL`, 0 for IllegalCommand (10_state.md R34). -/
def CoreError.actualField : CoreError → BitVec 4
  | .malformedRecord n => BitVec.ofNat 4 n
  | .invalidStepCount n => BitVec.ofNat 4 n
  | .illegalCommand => 0#4

/-- `expected`, fixed by the kind (00_scope.md R12); IllegalCommand has none (30_encoding.md R91). -/
def CoreError.expected : CoreError → Option Nat
  | .malformedRecord _ => some 8
  | .invalidStepCount _ => some 7
  | .illegalCommand => none

/-- The word ERR holds for an error: ACTUAL, two zero bits, CODE (10_state.md R34). -/
def CoreError.errWord (e : CoreError) : BitVec 8 := e.actualField ++ 0#2 ++ e.code

/-- ERR as the held copy of a response's error part; 0x00 for Ok and before any response (10_state.md R34). -/
def errOfResponse : Option Response → BitVec 8
  | none => 0x00#8
  | some (.ok _) => 0x00#8
  | some (.err e) => e.errWord

/-- `ERR.CODE = ERR[1:0]`. -/
def errCode (r : BitVec 8) : BitVec 2 := r.extractLsb' 0 2
/-- `ERR[3:2]`, reads 0. -/
def errZero (r : BitVec 8) : BitVec 2 := r.extractLsb' 2 2
/-- `ERR.ACTUAL = ERR[7:4]`. -/
def errActual (r : BitVec 8) : BitVec 4 := r.extractLsb' 4 4

/-- A result register's flag as a mask of VALID: VOUTV bit 0, RECV bit 1, BUFV bit 2 (10_state.md R35). -/
def ResultReg.mask : ResultReg → BitVec 8
  | .vout => 0x01#8
  | .record => 0x02#8
  | .buf => 0x04#8

/-- Is the flag set? -/
def validGet (v : BitVec 8) (r : ResultReg) : Bool := v &&& r.mask != 0#8
/-- VALID with the flag set, the others unchanged. -/
def validSet (v : BitVec 8) (r : ResultReg) : BitVec 8 := v ||| r.mask
/-- VALID with the flag cleared, the others unchanged. -/
def validClear (v : BitVec 8) (r : ResultReg) : BitVec 8 := v &&& ~~~r.mask
/-- `VALID[7:3]`, reads 0 (10_state.md R35). -/
def validZero (v : BitVec 8) : BitVec 5 := v.extractLsb' 3 5

/-- The valid flag of a result register. -/
def State.isValid (s : State) (r : ResultReg) : Bool := validGet s.valid r

end Sys2Proof.Machine
end

