-- ==== Sys2Proof/Machine/Ops.lean ====
section
/-! DEFINITION. The named operations: reading and writing a byte-addressed space, MemRead and MemWrite (00_scope.md R11),
raising an error (60_exceptions.md R157, the one shared operation that takes an exception), IllegalCommand (R154),
returning Ok (R159), a host read (10_state.md R36) and reset (70_reset_and_hazards.md R180). An error has no return
operation: the instance is ready at once (60_exceptions.md R160). -/

namespace Sys2Proof.Machine

/-! ### A byte-addressed space -/

/-- The byte at an offset, or no value. -/
def Memory.read : Memory → Nat → Option Byte
  | [], _ => none
  | (k, c) :: m, a => if a = k then some c else Memory.read m a

/-- Writing one byte, in the canonical place. -/
def Memory.write : Memory → Nat → Byte → Memory
  | [], a, b => [(a, b)]
  | (k, c) :: m, a, b =>
    if a < k then (a, b) :: (k, c) :: m
    else if a = k then (a, b) :: m
    else (k, c) :: Memory.write m a b

/-- Writing bytes at rising offsets from `a` on. -/
def Memory.writeBytes : Memory → Nat → List Byte → Memory
  | m, _, [] => m
  | m, a, b :: bs => Memory.writeBytes (Memory.write m a b) (a + 1) bs

/-- "No value" at every offset from `a` on: those offsets are no longer listed. -/
def Memory.dropFrom (m : Memory) (a : Nat) : Memory := m.filter fun c => decide (c.1 < a)

/-- The `n` bytes from `a` on; no value when one of them holds none. -/
def Memory.readBytes (m : Memory) : Nat → Nat → Option (List Byte)
  | _, 0 => some []
  | a, n + 1 =>
    match m.read a, m.readBytes (a + 1) n with
    | some b, some bs => some (b :: bs)
    | some _, none => none
    | none, _ => none

/-- The bytes that offsets 0 to `n` - 1 hold, in offset order. -/
def Memory.held (m : Memory) (n : Nat) : List Byte := (List.range n).filterMap m.read

/-- Offsets strictly rising, each above `lo` or equal to it. -/
def Memory.risingFrom : Nat → Memory → Bool
  | _, [] => true
  | lo, (k, _) :: m => decide (lo ≤ k) && Memory.risingFrom (k + 1) m

/-- The canonical form: offsets strictly rising. No entry can equal what an unlisted offset holds, since that is no value. -/
def Memory.wf (m : Memory) : Bool := Memory.risingFrom 0 m

/-! ### MemRead and MemWrite on BUF (00_scope.md R11) -/

/-- Byte `k` of a value, `v[8k+7:8k]` (00_scope.md R8). -/
def byteOf {n : Nat} (v : BitVec n) (k : Nat) : Byte := v.extractLsb' (8 * k) 8

/-- Bytes as a number, lowest offset least significant (20_memory.md R54). -/
def littleEndian : List Byte → Nat
  | [] => 0
  | b :: bs => b.toNat + 256 * littleEndian bs

/-- `MemWrite(a, n, v)`: `BUF[a + k] <- v[8k+7:8k]` for k below n. The spec gives it for n in W_SET (R11) and for offsets 0 to
63 (20_memory.md R50); that another n, or an offset above 63, is written alike is the model's choice (DESIGN CHOICE, log
entry 14). No operation uses it. -/
def memWrite {bits : Nat} (s : State) (a n : Nat) (v : BitVec bits) : State :=
  { s with buf := s.buf.writeBytes a ((List.range n).map (byteOf v)) }

/-- `MemRead(a, n)`: the sum of `BUF[a + k] * 2^(8k)`; no value when one of the bytes holds none. Another n than those of
W_SET, and an offset above 63, are read alike, as the model's choice (DESIGN CHOICE, log entry 14). No operation uses it. -/
def memRead (s : State) (a n : Nat) : Option Nat :=
  match s.buf.readBytes a n with
  | some bs => some (littleEndian bs)
  | none => none

/-! ### Result registers -/

/-- The bytes of a result register. -/
def State.space (s : State) : ResultReg → Memory
  | .vout => s.vout
  | .record => s.record
  | .buf => s.buf

/-- A result register that holds no value any more (10_state.md R36); VLEN goes with VOUT (R30). -/
def State.invalidate (s : State) : ResultReg → State
  | .vout => { s with vout := [], vlen := none, valid := validClear s.valid .vout }
  | .record => { s with record := [], valid := validClear s.valid .record }
  | .buf => { s with buf := [], valid := validClear s.valid .buf }

/-- Error entry (60_exceptions.md R157): the operation's own result register holds no value, ERR is the error's word, the
response is the error, and nothing else changes. -/
def raise (r : ResultReg) (e : CoreError) (s : State) : State :=
  { s.invalidate r with err := e.errWord, response := some (.err e) }

/-- IllegalCommand (60_exceptions.md R154): ERR and the response, nothing else. -/
def takeIllegalCommand (s : State) : State :=
  { s with err := CoreError.illegalCommand.errWord, response := some (.err .illegalCommand) }

/-- Success (60_exceptions.md R159): the flag is set, ERR is 0x00, and the response carries the bytes that the result
register's first `n` offsets hold; the operation has just written them all (10_state.md R33). -/
def returnOk (r : ResultReg) (n : Nat) (s : State) : State :=
  { s with valid := validSet s.valid r, err := 0x00#8, response := some (.ok ((s.space r).held n)) }

/-! ### The host between operations -/

/-- A host read of what holds no value is a fault of the model (60_exceptions.md R163, 10_state.md R36). -/
def valueOrFault : Option Byte → Except Fault Byte
  | some b => .ok b
  | none => .error .noValue

/-- A read at an offset of a result register of `len` bytes (20_memory.md R50); while its flag is 0 the register holds no
value (10_state.md R36). -/
def readSpace (s : State) (r : ResultReg) (len k : Nat) : Except Fault Byte :=
  if len ≤ k then .error .noSuchOffset
  else valueOrFault (if s.isValid r then (s.space r).read k else none)

/-- What a host read answers (10_state.md R29, R34 to R36). VLEN's four bits are read as a byte (DESIGN CHOICE, log entry 12). -/
def readReg (s : State) : HostReg → Except Fault Byte
  | .vout k => readSpace s .vout Config.voutLen k
  | .vlen => valueOrFault (if s.isValid .vout then s.vlen.map (BitVec.zeroExtend 8) else none)
  | .record k => readSpace s .record Config.recLen k
  | .buf k => readSpace s .buf Config.pktLen k
  | .err => .ok s.err
  | .valid => .ok s.valid

/-- A host read: the byte goes to the host and no register of the CORE changes (20_memory.md R61). -/
def hostRead (r : HostReg) (s : State) : Host.Outcome State Fault Refusal :=
  match readReg s r with
  | .ok b => .next { s with readData := some b }
  | .error f => .fault f

/-- A reset between operations (70_reset_and_hazards.md R180, R181): every register takes its reset value; what the host does
next is the host's. -/
def hardReset (s : State) : State := { State.reset with inputs := s.inputs }

end Sys2Proof.Machine
end

