-- ==== Sys2Proof/Machine/Operands.lean ====
section
/-! DEFINITION. Operand and result assembly (30_encoding.md part 3): the little-endian image `le`, the Step a slot denotes,
a Step's record, `renc` with its length check, the Metadata copy with its checksum bytes zeroed; and the pseudo-operands
and pseudo-operations of part 6. -/

namespace Sys2Proof.Machine

/-- `le(w, v)`: the little-endian image of `v` in `w` bytes (40_value_encoder.md R100). -/
def le (w : Nat) {n : Nat} (v : BitVec n) : List Byte := (List.range w).map (byteOf v)

/-- The eight fields of a TimedColorStep in a payload, field k in `pay[8k+7:8k]` (10_state.md R24, 30_encoding.md R81). -/
def timedColorOf (pay : BitVec 64) : TimedColorStep :=
  ⟨byteOf pay 0, byteOf pay 1, byteOf pay 2, byteOf pay 3, byteOf pay 4, byteOf pay 5, byteOf pay 6, byteOf pay 7⟩

/-- `step_of(t, pay)`; a reserved tag denotes no Step (30_encoding.md R81). -/
def stepOf (t : Tag) (pay : BitVec 64) : Option Step :=
  match t with
  | .timedColorStep => some (.timedColor (timedColorOf pay))
  | .rawQuadWord => some (.rawQuad pay)
  | .reservedC => none
  | .reservedD => none

/-- The record of a Step: a TimedColorStep's fields in declared order (30_encoding.md R71), a RawQuadWord's value through the
Value Encoder (R72, 41_record_encoder.md R112). -/
def recordOf : Step → List Byte
  | .timedColor f => [f.opcodeTarget, f.repeats, f.red, f.green, f.blue, f.onTime, f.offTime, f.padding]
  | .rawQuad value => le 8 value

/-- `renc(tag, pay)` (41_record_encoder.md R110): no bytes for a reserved tag, and the length check on whatever was
produced. -/
def renc (t : Tag) (pay : BitVec 64) : Except CoreError (List Byte) :=
  let r := match stepOf t pay with
    | some st => recordOf st
    | none => []
  if r.length ≠ Config.recLen then .error (.malformedRecord r.length) else .ok r

/-- FRAME's step 1: the Metadata with bytes 6 and 7 zero (43_checksum_framer.md R130). -/
def zeroChecksum (md : Metadata) : Metadata := { md with m6 := 0x00#8, m7 := 0x00#8 }

/-- `high_byte(c)` (00_scope.md R9). -/
def highByte (c : BitVec 16) : Byte := c.extractLsb' 8 8
/-- `low_byte(c)` (00_scope.md R9). -/
def lowByte (c : BitVec 16) : Byte := c.extractLsb' 0 8

/-- One addition of the checksum: the byte zero-extended, the carry out of bit 15 discarded (43_checksum_framer.md R134). -/
def addByte (acc : BitVec 16) (b : Byte) : BitVec 16 := acc + b.zeroExtend 16

/-- The checksum of a byte sequence, added in offset order from 0 (43_checksum_framer.md R133, R134). -/
def checksum (bs : List Byte) : BitVec 16 := bs.foldl addByte 0x0000#16

/-! ### Pseudo-operands and pseudo-operations (30_encoding.md part 6) -/

/-- A TimedColorStep's fields packed in a payload (10_state.md R24). -/
def packTimedColor (f : TimedColorStep) : BitVec 64 :=
  f.padding ++ f.offTime ++ f.onTime ++ f.blue ++ f.green ++ f.red ++ f.repeats ++ f.opcodeTarget

/-- A Step as a StepSlot in raw form (10_state.md R24). -/
def slotOf : Step → StepSlot
  | .timedColor f => ⟨.timedColorStep, packTimedColor f⟩
  | .rawQuad value => ⟨.rawQuadWord, value⟩

/-- EMPTY, `RawQuadWord{0}` (30_encoding.md R92). -/
def emptySlot : StepSlot := slotOf (.rawQuad 0#64)

/-- KEEPALIVE, the TimedColorStep with opcode_target 0x8f and every other field 0x00 (30_encoding.md R93). -/
def keepAliveSlot : StepSlot := slotOf (.timedColor ⟨0x8f, 0x00, 0x00, 0x00, 0x00, 0x00, 0x00, 0x00⟩)

/-- `encode_step(s)` is RENC.t with t the variant of s (30_encoding.md R94). -/
def encodeStep : Step → Instr
  | .timedColor f => .rencTcs (packTimedColor f)
  | .rawQuad value => .rencRqw value

/-- `assemble(steps, meta)` is ASM (30_encoding.md R94). -/
def assemble (steps : List StepSlot) (md : Metadata) : Instr := .asm steps md

/-- `frame_with_checksum(P)` is FRAME with N = 7 (30_encoding.md R94): the Packet's seven slots as a vector. -/
def frameWithChecksum (steps : Vector StepSlot 7) (md : Metadata) : Instr := .frame steps.toList md

end Sys2Proof.Machine
end

