-- ==== Sys2Proof/Machine/PacketAssembler.lean ====
section
/-! DEFINITION. The Packet Assembler: ASM (42_packet_assembler.md). -/

namespace Sys2Proof.Machine

/-- Eight bytes placed at OFF, and OFF advanced by 8 (42_packet_assembler.md R120, 10_state.md R39). -/
def placeBlock (bs : List Byte) (s : State) : State :=
  { s with buf := s.buf.writeBytes s.off.toNat bs, off := s.off + 8#7 }

/-- The slots in order: each is encoded and its record placed; the first `renc` that raises ends the loop, with the state it
leaves (42_packet_assembler.md R120, R122). -/
def placeSlots : List StepSlot → State → Except (CoreError × State) State
  | [], s => .ok s
  | slot :: rest, s =>
    match renc slot.tag slot.pay with
    | .error e => .error (e, s)
    | .ok r => placeSlots rest (placeBlock r s)

/-- The operation part of ASM (R120): the count check before anything else (R121), the records, the Metadata verbatim. -/
def assemblePart (steps : List StepSlot) (md : Metadata) (s : State) : Except (CoreError × State) State :=
  if steps.length ≠ Config.nSteps then .error (.invalidStepCount steps.length, s)
  else
    match placeSlots steps { s with off := 0#7 } with
    | .error x => .error x
    | .ok t => .ok (placeBlock md.bytes t)

/-- ASM (R120). -/
def execAsm (steps : List StepSlot) (md : Metadata) (s : State) : Host.Outcome State Fault Refusal :=
  match assemblePart steps md s with
  | .error (e, t) => .next (raise .buf e t)
  | .ok t => .next (returnOk .buf Config.pktLen t)

end Sys2Proof.Machine
end

