-- ==== Sys2Proof/Machine/ChecksumFramer.lean ====
section
/-! DEFINITION. The Checksum Framer: FRAME (43_checksum_framer.md). -/

namespace Sys2Proof.Machine

/-- FRAME's step 3: ACC is the sum of BUF[0] to BUF[61] (43_checksum_framer.md R130, R133), which
step 2 has just written (20_memory.md R63). -/
def sumBuffer (s : State) : State := { s with acc := checksum (s.buf.held Config.csumSpan) }

/-- FRAME's step 4: the checksum big-endian into BUF[62] and BUF[63] (43_checksum_framer.md R130, 20_memory.md R55). -/
def patchChecksum (s : State) : State :=
  { s with buf := s.buf.writeBytes Config.csumOff [highByte s.acc, lowByte s.acc] }

/-- FRAME (43_checksum_framer.md R130): zero, assemble, sum, patch; an error of the assembly ends it unchanged (R140). -/
def execFrame (steps : List StepSlot) (md : Metadata) (s : State) : Host.Outcome State Fault Refusal :=
  match assemblePart steps (zeroChecksum md) { s with mcopy := zeroChecksum md } with
  | .error (e, t) => .next (raise .buf e t)
  | .ok t => .next (returnOk .buf Config.pktLen (patchChecksum (sumBuffer t)))

end Sys2Proof.Machine
end

