-- ==== Sys2Proof/Machine/RecordEncoder.lean ====
section
/-! DEFINITION. The Record Encoder: RENC.TCS, RENC.RQW, RENC.C, RENC.D (41_record_encoder.md). -/

namespace Sys2Proof.Machine

/-- The shared shape of R111 to R114: `renc`, its record into REC, or its error. -/
def encodeRecord (t : Tag) (pay : BitVec 64) (s : State) : Host.Outcome State Fault Refusal :=
  match renc t pay with
  | .error e => .next (raise .record e s)
  | .ok r => .next (returnOk .record Config.recLen { s with record := s.record.writeBytes 0 r })

/-- RENC.TCS (R111). -/
def execRencTcs (pay : BitVec 64) (s : State) : Host.Outcome State Fault Refusal := encodeRecord .timedColorStep pay s

/-- RENC.RQW (R112). -/
def execRencRqw (pay : BitVec 64) (s : State) : Host.Outcome State Fault Refusal := encodeRecord .rawQuadWord pay s

/-- RENC.C (R113). -/
def execRencC (pay : BitVec 64) (s : State) : Host.Outcome State Fault Refusal := encodeRecord .reservedC pay s

/-- RENC.D (R114). -/
def execRencD (pay : BitVec 64) (s : State) : Host.Outcome State Fault Refusal := encodeRecord .reservedD pay s

end Sys2Proof.Machine
end

