-- ==== Sys2Proof/Machine/ValueEncoder.lean ====
section
/-! DEFINITION. The Value Encoder: VENC1, VENC2, VENC4, VENC8 (40_value_encoder.md). -/

namespace Sys2Proof.Machine

/-- The shared shape of R101 to R104: the image into VOUT, no value above it, VLEN, then success. VENC cannot fail. -/
def encodeValue (w : Nat) {n : Nat} (v : BitVec n) (s : State) : Host.Outcome State Fault Refusal :=
  .next (returnOk .vout w
    { s with vout := (s.vout.writeBytes 0 (le w v)).dropFrom w, vlen := some (BitVec.ofNat 4 w) })

/-- VENC1 (R101). -/
def execVenc1 (v : BitVec 8) (s : State) : Host.Outcome State Fault Refusal := encodeValue 1 v s

/-- VENC2 (R102). -/
def execVenc2 (v : BitVec 16) (s : State) : Host.Outcome State Fault Refusal := encodeValue 2 v s

/-- VENC4 (R103). -/
def execVenc4 (v : BitVec 32) (s : State) : Host.Outcome State Fault Refusal := encodeValue 4 v s

/-- VENC8 (R104). -/
def execVenc8 (v : BitVec 64) (s : State) : Host.Outcome State Fault Refusal := encodeValue 8 v s

end Sys2Proof.Machine
end

