-- ==== Sys2Proof/Machine/Dispatch.lean ====
section
/-! DEFINITION. exec: one arm per constructor of Instr, each a direct call of that operation's meaning. -/

namespace Sys2Proof.Machine

def exec (i : Instr) (s : State) : Host.Outcome State Fault Refusal :=
  match i with
  | .venc1 v => Sys2Proof.Machine.execVenc1 v s
  | .venc2 v => Sys2Proof.Machine.execVenc2 v s
  | .venc4 v => Sys2Proof.Machine.execVenc4 v s
  | .venc8 v => Sys2Proof.Machine.execVenc8 v s
  | .rencTcs pay => Sys2Proof.Machine.execRencTcs pay s
  | .rencRqw pay => Sys2Proof.Machine.execRencRqw pay s
  | .rencC pay => Sys2Proof.Machine.execRencC pay s
  | .rencD pay => Sys2Proof.Machine.execRencD pay s
  | .asm steps md => Sys2Proof.Machine.execAsm steps md s
  | .frame steps md => Sys2Proof.Machine.execFrame steps md s

end Sys2Proof.Machine
end

