-- ==== Sys2Proof/Machine/Serve.lean ====
section
/-! DEFINITION. One input of the host: a request is decoded and run, a read answered, a reset taken (60_exceptions.md R167,
R170; 70_reset_and_hazards.md R180). -/

namespace Sys2Proof.Machine

/-- A request, given as its bytes. A reserved word takes IllegalCommand's effect (60_exceptions.md R154), decided from the
command word alone (R155); a request that does not carry what 60_exceptions.md R167 has the host supply is refused. -/
def serve (bs : List Byte) (s : State) : Host.Outcome State Fault Refusal :=
  match decode bs with
  | .instr i _ => exec i s
  | .reservedWord _ => .next (takeIllegalCommand s)
  | .operandMissing _ => .refused .operandMissing
  | .noCommand => .refused .noCommandWord

/-- One input of the host. -/
def takeInput (x : Input) (s : State) : Host.Outcome State Fault Refusal :=
  match x with
  | .request bs => serve bs s
  | .read r => hostRead r s
  | .reset => .next (hardReset s)

/-- With no input to come the instance is idle: nothing changes (60_exceptions.md R167, log entry 5). -/
def takeNext (s : State) : Host.Outcome State Fault Refusal :=
  match s.inputs with
  | [] => .next s
  | x :: rest => takeInput x { s with inputs := rest }

/-- The host issues one more request, ahead of whatever else it does. -/
def issueFirst (bs : List Byte) (s : State) : State := { s with inputs := .request bs :: s.inputs }

end Sys2Proof.Machine
end

