-- ==== Sys2Proof/Machine/Step.lean ====
section
/-! DEFINITION. step: the next input of the host, served to its end (00_scope.md R14, 20_memory.md R61). There is no program
counter and no fetch (10_state.md R38, 20_memory.md R66): what is executed next is the request the host issues next. -/

namespace Sys2Proof.Machine

/-- One step of the machine. -/
def step (s : State) : Host.Outcome State Fault Refusal := takeNext s

/-- `s` with the request of the opcode table's bits `w` issued next; its operands are zeros. -/
def State.withFetchWord (s : State) (nbits w : Nat) : State := issueFirst (tableBytes nbits w) s

end Sys2Proof.Machine
end

