-- ==== Sys2Proof/Safety.lean ====
section
/-! DEFINITION. The terms the claims use: what a byte-addressed space holds, the invariant of a CORE instance, what an
operation of each unit may write (10_state.md R33), and an operation's observable result. -/

namespace Sys2Proof.Machine

/-- The space holds a value at exactly the offsets 0 to `n` - 1, and is in canonical form. -/
abbrev Memory.covers (m : Memory) (n : Nat) : Prop := m.map Prod.fst = List.range n

/-! ### The invariant, clause by clause -/

/-- VOUT and VLEN: while VOUTV is 1, VLEN is 1, 2, 4 or 8 and exactly that many bytes hold a value; while it is 0, nothing
does (10_state.md R30, R35, R36; 93_implementation_defined.md U15). -/
abbrev State.VoutHeld (s : State) : Prop :=
  (s.isValid .vout = true ∧ ∃ w ∈ [1, 2, 4, 8], s.vlen = some (BitVec.ofNat 4 w) ∧ s.vout.covers w) ∨
    (s.isValid .vout = false ∧ s.vlen = none ∧ s.vout = [])

/-- REC: all eight bytes while RECV is 1, none while it is 0 (10_state.md R31, R35, R36). -/
abbrev State.RecordHeld (s : State) : Prop :=
  (s.isValid .record = true ∧ s.record.covers Config.recLen) ∨ (s.isValid .record = false ∧ s.record = [])

/-- BUF: all sixty-four bytes while BUFV is 1, none while it is 0 (10_state.md R32, R35, R36). -/
abbrev State.BufHeld (s : State) : Prop :=
  (s.isValid .buf = true ∧ s.buf.covers Config.pktLen) ∨ (s.isValid .buf = false ∧ s.buf = [])

/-- A response the CORE can give: an Ok of a result register's length, MalformedRecord with actual 0, InvalidStepCount with
a count a 4-bit field can carry and 7 is not, IllegalCommand (60_exceptions.md R151 to R154, 30_encoding.md R70). -/
abbrev Response.possible : Response → Prop
  | .ok bs => bs.length ∈ [1, 2, 4, 8, 64]
  | .err (.malformedRecord n) => n = 0
  | .err (.invalidStepCount n) => n ≠ 7 ∧ n ≤ 15
  | .err .illegalCommand => True

/-- The last response is one the CORE can give. -/
abbrev State.ResponsePossible (s : State) : Prop := ∀ r ∈ s.response, r.possible

/-- ERR is the held copy of the last response's error part (10_state.md R34). -/
abbrev State.ErrMirrors (s : State) : Prop := s.err = errOfResponse s.response

/-- `VALID[7:3]` reads 0 (10_state.md R35). -/
abbrev State.ValidReserved (s : State) : Prop := validZero s.valid = 0#5

/-- OFF lies in 0 to 64 and is a multiple of 8 (10_state.md R39, R42; 20_memory.md R57). -/
abbrev State.OffAligned (s : State) : Prop := s.off.toNat ≤ 64 ∧ s.off.toNat % 8 = 0

/-- The invariant of a CORE instance. -/
structure State.Inv (s : State) : Prop where
  voutHeld : s.VoutHeld
  recordHeld : s.RecordHeld
  bufHeld : s.BufHeld
  responsePossible : s.ResponsePossible
  errMirrors : s.ErrMirrors
  validReserved : s.ValidReserved
  offAligned : s.OffAligned

/-- Every byte-addressed space is in canonical form. -/
abbrev State.Canonical (s : State) : Prop := s.vout.wf = true ∧ s.record.wf = true ∧ s.buf.wf = true

/-! ### What an operation of each unit leaves alone (10_state.md R33, R35, R44) -/

/-- Nothing outside VOUT, VLEN, VOUTV, ERR and the response differs. -/
structure OnlyVout (s t : State) : Prop where
  record : t.record = s.record
  recv : t.isValid .record = s.isValid .record
  buf : t.buf = s.buf
  bufv : t.isValid .buf = s.isValid .buf
  validZero : validZero t.valid = validZero s.valid
  mcopy : t.mcopy = s.mcopy
  acc : t.acc = s.acc
  off : t.off = s.off
  readData : t.readData = s.readData
  inputs : t.inputs = s.inputs

/-- Nothing outside REC, RECV, ERR and the response differs. -/
structure OnlyRecord (s t : State) : Prop where
  vout : t.vout = s.vout
  vlen : t.vlen = s.vlen
  voutv : t.isValid .vout = s.isValid .vout
  buf : t.buf = s.buf
  bufv : t.isValid .buf = s.isValid .buf
  validZero : validZero t.valid = validZero s.valid
  mcopy : t.mcopy = s.mcopy
  acc : t.acc = s.acc
  off : t.off = s.off
  readData : t.readData = s.readData
  inputs : t.inputs = s.inputs

/-- Nothing outside BUF, BUFV, ERR, the response and the hidden registers MCOPY, ACC and OFF differs. -/
structure OnlyBuf (s t : State) : Prop where
  vout : t.vout = s.vout
  vlen : t.vlen = s.vlen
  voutv : t.isValid .vout = s.isValid .vout
  record : t.record = s.record
  recv : t.isValid .record = s.isValid .record
  validZero : validZero t.valid = validZero s.valid
  readData : t.readData = s.readData
  inputs : t.inputs = s.inputs

/-! ### A request's bytes -/

/-- The StepSlots a request carries (30_encoding.md R79). -/
def slotsOf : Instr → List StepSlot
  | .venc1 _ => []
  | .venc2 _ => []
  | .venc4 _ => []
  | .venc8 _ => []
  | .rencTcs _ => []
  | .rencRqw _ => []
  | .rencC _ => []
  | .rencD _ => []
  | .asm steps _ => steps
  | .frame steps _ => steps

/-- Does the byte at offset `k` of the instruction's request hold a slot's tag? The slots follow the command word, nine bytes
each, the tag first (the model's layout, log entry 1). -/
abbrev IsTagOffset (i : Instr) (k : Nat) : Prop := k < 9 * (slotsOf i).length ∧ k % 9 = 1

/-- The bytes `bs` begin with the request of `i`: each byte is the one the encoder writes, but that of a slot's tag byte only
the tag itself is looked at (30_encoding.md R80). -/
structure CarriesRequest (i : Instr) (bs : List Byte) : Prop where
  allThere : (encode i).length ≤ bs.length
  bytes : ∀ k < (encode i).length, ¬ IsTagOffset i k → bs[k]? = (encode i)[k]?
  tags : ∀ k, IsTagOffset i k → bs[k]?.map (BitVec.extractLsb' 0 2) = (encode i)[k]?.map (BitVec.extractLsb' 0 2)

/-! ### An operation's outcome -/

/-- The result register an operation writes (10_state.md R30 to R32). -/
def resultRegOf : Instr → ResultReg
  | .venc1 _ => .vout
  | .venc2 _ => .vout
  | .venc4 _ => .vout
  | .venc8 _ => .vout
  | .rencTcs _ => .record
  | .rencRqw _ => .record
  | .rencC _ => .record
  | .rencD _ => .record
  | .asm _ _ => .buf
  | .frame _ _ => .buf

/-- The number of byte registers of a result register (10_state.md R30 to R32). -/
def ResultReg.size : ResultReg → Nat
  | .vout => Config.voutLen
  | .record => Config.recLen
  | .buf => Config.pktLen

/-- What an instruction may write: its own unit's registers, and ASM neither MCOPY nor ACC (10_state.md R33). -/
def WritesOnlyOwn (i : Instr) (s t : State) : Prop :=
  match i with
  | .venc1 _ => OnlyVout s t
  | .venc2 _ => OnlyVout s t
  | .venc4 _ => OnlyVout s t
  | .venc8 _ => OnlyVout s t
  | .rencTcs _ => OnlyRecord s t
  | .rencRqw _ => OnlyRecord s t
  | .rencC _ => OnlyRecord s t
  | .rencD _ => OnlyRecord s t
  | .asm _ _ => OnlyBuf s t ∧ t.mcopy = s.mcopy ∧ t.acc = s.acc
  | .frame _ _ => OnlyBuf s t

/-- The operation ended with `Ok(bs)`: the response carries `bs`, ERR is 0x00, the flag of its result register is set
(60_exceptions.md R159). -/
structure Succeeded (r : ResultReg) (bs : List Byte) (t : State) : Prop where
  response : t.response = some (.ok bs)
  err : t.err = 0x00#8
  flag : t.isValid r = true

/-- The operation ended with the error `e` (60_exceptions.md R157): the response is the error, ERR holds its word, the flag of
its result register is clear, and that register holds no value at any offset. -/
structure Failed (r : ResultReg) (e : CoreError) (t : State) : Prop where
  response : t.response = some (.err e)
  err : t.err = e.errWord
  flag : t.isValid r = false
  noValue : ∀ k, (t.space r).read k = none

/-- Is the slot's variant one of the two defined ones (41_record_encoder.md R115)? -/
abbrev slotDefined (x : StepSlot) : Prop := x.tag = .timedColorStep ∨ x.tag = .rawQuadWord

/-- A packet request the spec gives an Ok: seven slots, every variant defined (42_packet_assembler.md R125). -/
abbrev Packable (steps : List StepSlot) : Prop := steps.length = 7 ∧ ∀ x ∈ steps, slotDefined x

/-- Seven slots of which one is reserved (42_packet_assembler.md R125). -/
abbrev HasReserved (steps : List StepSlot) : Prop := steps.length = 7 ∧ ∃ x ∈ steps, ¬ slotDefined x

/-- The packet format of 30_encoding.md R74: the slots' records in order, each a payload least significant byte first
(20_memory.md R56), then the eight Metadata bytes. -/
def packetBytes (steps : List StepSlot) (md : Metadata) : List Byte := steps.flatMap (fun x => le 8 x.pay) ++ md.bytes

/-- `patch(B)`: bytes 62 and 63 replaced by the high and low byte of the sum of bytes 0 to 61 (43_checksum_framer.md R142). -/
def patched (bs : List Byte) : List Byte :=
  bs.take 62 ++ [highByte (checksum (bs.take 62)), lowByte (checksum (bs.take 62))]

/-- The sum of bytes over the integers (43_checksum_framer.md R133). -/
def byteSum (bs : List Byte) : Nat := (bs.map BitVec.toNat).sum

end Sys2Proof.Machine
end

