-- ==== Sys2Proof/Certificates/Slice0/Obligations.lean ====
section
/-! DEFINITION. The statements for the provers. Each docstring names the rule of spec/ it formalises, or says that it rests on
a choice of the model and on which log entry. -/

open Sys2Proof Sys2Proof.Machine

/-! ### Encoding -/

/-- Decoding the bytes of any well-formed request gives its instruction back, whatever bytes follow. The command word is
30_encoding.md R76 to R78 and R85, the operands' order R79; their layout in bytes is the model's (log entry 1). -/
def Obligations.DecodeOfEncodeIsTheInstruction : Prop :=
  ∀ (i : Instr) (rest : List Byte), i.wellFormed = true → decode (encode i ++ rest) = .instr i rest

/-- Whatever bytes decode to an instruction begin with that instruction's command word (30_encoding.md R76) and its operands
(R79), byte for byte as the encoder writes them but for the upper six bits of each slot's tag byte, which are ignored (R80);
the bytes left over are those after them, and the instruction is well formed. How the operands lie in bytes is the model's
choice (log entry 1). -/
def Obligations.DecodedInstructionIsWellFormed : Prop :=
  ∀ (bs rest : List Byte) (i : Instr), decode bs = .instr i rest →
    i.wellFormed = true ∧ bs.head? = some i.command.word ∧ CarriesRequest i bs ∧ rest = bs.drop (encode i).length

/-- Command words of 30_encoding.md R85, written out from its table and from the decoding table of 95_test_vectors.md 2.5; and
one whole request per unit, whose command word is the spec's and whose operand bytes lie as the model chose (log entry 1,
DESIGN CHOICE: the spec leaves the operands' layout in bytes open). -/
def Obligations.CommandWordsReadAsTheTableSays : Prop :=
  decodeCommand 0x00#8 = some (.venc .w1) ∧ decodeCommand 0x01#8 = some (.venc .w2) ∧
  decodeCommand 0x02#8 = some (.venc .w4) ∧ decodeCommand 0x03#8 = some (.venc .w8) ∧
  decodeCommand 0x40#8 = some (.renc .timedColorStep) ∧ decodeCommand 0x41#8 = some (.renc .rawQuadWord) ∧
  decodeCommand 0x42#8 = some (.renc .reservedC) ∧ decodeCommand 0x43#8 = some (.renc .reservedD) ∧
  decodeCommand 0x80#8 = some (.asm 0#4) ∧ decodeCommand 0x87#8 = some (.asm 7#4) ∧
  decodeCommand 0x8F#8 = some (.asm 15#4) ∧ decodeCommand 0xC0#8 = some (.frame 0#4) ∧
  decodeCommand 0xC7#8 = some (.frame 7#4) ∧ decodeCommand 0xCF#8 = some (.frame 15#4) ∧
  decode [0x01#8, 0x34#8, 0x12#8] = .instr (.venc2 0x1234#16) [] ∧
  decode [0x40#8, 0x8F#8, 0#8, 0#8, 0#8, 0#8, 0#8, 0#8, 0#8] = .instr (.rencTcs 0x8F#64) [] ∧
  decode [0x80#8, 1#8, 2#8, 3#8, 4#8, 5#8, 6#8, 7#8, 8#8] = .instr (.asm [] ⟨1, 2, 3, 4, 5, 6, 7, 8⟩) [] ∧
  decode [0xC1#8, 2#8, 1#8, 0#8, 0#8, 0#8, 0#8, 0#8, 0#8, 0x80#8, 1#8, 2#8, 3#8, 4#8, 5#8, 6#8, 7#8, 8#8] =
    .instr (.frame [⟨.reservedC, 0x8000000000000001#64⟩] ⟨1, 2, 3, 4, 5, 6, 7, 8⟩) []

/-- 30_encoding.md R89: which words are reserved, and that there are 216 of them and 40 legal ones (R85). -/
def Obligations.ReservedWordsAreThoseOfTheRule : Prop :=
  (∀ c : Byte, decodeCommand c = none ↔
    c.extractLsb' 4 2 ≠ 0#2 ∨ ((c.extractLsb' 6 2 = 0#2 ∨ c.extractLsb' 6 2 = 1#2) ∧ c.extractLsb' 2 2 ≠ 0#2)) ∧
  (List.range 256).countP (fun c => decodeCommand (BitVec.ofNat 8 c) == none) = 216 ∧
  (List.range 256).countP (fun c => decodeCommand (BitVec.ofNat 8 c) != none) = 40

/-! ### The step and the host -/

/-- A step whose next input is a request that decodes to an instruction is exec of that instruction, on the state from which
that input is taken; nothing else is added around it (00_scope.md R14, 10_state.md R38; the inputs: log entry 5). -/
def Obligations.StepRunsTheDecodedInstruction : Prop :=
  ∀ (s : State) (bs extra : List Byte) (rest : List Input) (i : Instr),
    s.inputs = .request bs :: rest → decode bs = .instr i extra → step s = exec i { s with inputs := rest }

/-- 60_exceptions.md R154: a reserved word sets ERR to 0x03 and answers IllegalCommand, whatever operands come with it, and
changes nothing else; the request is used up. Reserved as R89 of 30_encoding.md says. -/
def Obligations.ReservedWordOnlyRaisesIllegalCommand : Prop :=
  ∀ (s : State) (c : Byte) (operands : List Byte) (rest : List Input),
    s.inputs = .request (c :: operands) :: rest →
    (c.extractLsb' 4 2 ≠ 0#2 ∨ ((c.extractLsb' 6 2 = 0#2 ∨ c.extractLsb' 6 2 = 1#2) ∧ c.extractLsb' 2 2 ≠ 0#2)) →
    step s = .next { s with err := 0x03#8, response := some (.err .illegalCommand), inputs := rest }

/-- A request whose bytes end before its operands do is refused by name, and so is one without a command word: the host has
not supplied what 60_exceptions.md R167 says it must (the model's choice, log entry 3). -/
def Obligations.IncompleteRequestIsRefused : Prop :=
  ∀ (s : State) (bs : List Byte) (rest : List Input), s.inputs = .request bs :: rest →
    (∀ c, decode bs = .operandMissing c → step s = .refused .operandMissing) ∧
    (bs = [] → step s = .refused .noCommandWord)

/-- With no input to come a step changes nothing (60_exceptions.md R167; the idle step is the model's, log entry 5). -/
def Obligations.IdleStepChangesNothing : Prop :=
  ∀ s : State, s.inputs = [] → step s = .next s

/-- A reset between operations (70_reset_and_hazards.md R180) leaves the flags and ERR at 0 and no value in VOUT, VLEN, REC
and BUF, and takes nothing from what the host does next. -/
def Obligations.ResetInputLeavesNoValue : Prop :=
  ∀ (s : State) (rest : List Input), s.inputs = .reset :: rest →
    ∃ t, step s = .next t ∧ t.valid = 0x00#8 ∧ t.err = 0x00#8 ∧ t.vlen = none ∧
      (∀ r k, (t.space r).read k = none) ∧ t.inputs = rest

/-- The reset values the spec gives (10_state.md R43): VALID and ERR are 0x00, and VOUT, VLEN, REC and BUF hold no value. The
hidden registers' reset values are the model's (log entry 2) and are not stated. -/
def Obligations.ResetValuesTheSpecGives : Prop :=
  State.reset.valid = 0x00#8 ∧ State.reset.err = 0x00#8 ∧ State.reset.vlen = none ∧
    ∀ r k, (State.reset.space r).read k = none

/-- 10_state.md R36: while its flag is 0 a result register holds no value, and a host read of it, at any of its offsets, has
no result: the model's fault. VLEN is read with VOUT (R30). The last clause: while VOUTV is 1 the bytes of VOUT at or beyond
VLEN hold no value either (R30), and a host read of one has no result (93_implementation_defined.md U11). -/
def Obligations.InvalidResultRegisterHasNoReading : Prop :=
  ∀ (s : State) (rest : List Input), s.Inv →
    (∀ r, s.isValid r = false → ∀ k, (s.space r).read k = none) ∧
    (∀ k < 8, s.isValid .vout = false → s.inputs = .read (.vout k) :: rest → step s = .fault .noValue) ∧
    (s.isValid .vout = false → s.inputs = .read .vlen :: rest → step s = .fault .noValue) ∧
    (∀ k < 8, s.isValid .record = false → s.inputs = .read (.record k) :: rest → step s = .fault .noValue) ∧
    (∀ k < 64, s.isValid .buf = false → s.inputs = .read (.buf k) :: rest → step s = .fault .noValue) ∧
    (∀ (n : BitVec 4) (k : Nat), s.isValid .vout = true → s.vlen = some n → n.toNat ≤ k → k < 8 →
      s.inputs = .read (.vout k) :: rest → s.vout.read k = none ∧ step s = .fault .noValue)

/-- 20_memory.md R61, 10_state.md R29, R30: a host read of a valid register gives the byte it holds and changes no register; ERR
and VALID can always be read. The byte lands in `readData`, the model's own field (log entry 6). That VLEN's four bits are
read as a byte with zeros above them is the model's choice (log entry 12, DESIGN CHOICE: the spec does not say how the host
reads a 4-bit register). -/
def Obligations.HostReadGivesTheHeldByte : Prop :=
  ∀ (s : State) (rest : List Input), s.Inv →
    (∀ (n : BitVec 4) (k : Nat), s.isValid .vout = true → s.vlen = some n → k < n.toNat → s.inputs = .read (.vout k) :: rest →
      ∃ b, s.vout.read k = some b ∧ step s = .next { s with readData := some b, inputs := rest }) ∧
    (∀ n : BitVec 4, s.isValid .vout = true → s.vlen = some n → s.inputs = .read .vlen :: rest →
      step s = .next { s with readData := some (n.zeroExtend 8), inputs := rest }) ∧
    (∀ k < 8, s.isValid .record = true → s.inputs = .read (.record k) :: rest →
      ∃ b, s.record.read k = some b ∧ step s = .next { s with readData := some b, inputs := rest }) ∧
    (∀ k < 64, s.isValid .buf = true → s.inputs = .read (.buf k) :: rest →
      ∃ b, s.buf.read k = some b ∧ step s = .next { s with readData := some b, inputs := rest }) ∧
    (s.inputs = .read .err :: rest → step s = .next { s with readData := some s.err, inputs := rest }) ∧
    (s.inputs = .read .valid :: rest → step s = .next { s with readData := some s.valid, inputs := rest })

/-! ### The Value Encoder -/

/-- 40_value_encoder.md R101. -/
def Obligations.Venc1GivesTheByte : Prop :=
  ∀ (v : BitVec 8) (s : State), (Instr.venc1 v).command.word = 0x00#8 ∧
    ∃ t, exec (.venc1 v) s = .next t ∧ t.vout.read 0 = some v ∧ (∀ k, 1 ≤ k → k < 8 → t.vout.read k = none) ∧
      t.vlen = some 1#4 ∧ Succeeded .vout [v] t ∧ OnlyVout s t

/-- 40_value_encoder.md R102. -/
def Obligations.Venc2GivesLowByteFirst : Prop :=
  ∀ (v : BitVec 16) (s : State), (Instr.venc2 v).command.word = 0x01#8 ∧
    ∃ t, exec (.venc2 v) s = .next t ∧ t.vout.read 0 = some (v.extractLsb' 0 8) ∧
      t.vout.read 1 = some (v.extractLsb' 8 8) ∧ (∀ k, 2 ≤ k → k < 8 → t.vout.read k = none) ∧
      t.vlen = some 2#4 ∧ Succeeded .vout [v.extractLsb' 0 8, v.extractLsb' 8 8] t ∧ OnlyVout s t

/-- 40_value_encoder.md R103. -/
def Obligations.Venc4GivesLowByteFirst : Prop :=
  ∀ (v : BitVec 32) (s : State), (Instr.venc4 v).command.word = 0x02#8 ∧
    ∃ t, exec (.venc4 v) s = .next t ∧ (∀ k < 4, t.vout.read k = some (v.extractLsb' (8 * k) 8)) ∧
      (∀ k, 4 ≤ k → k < 8 → t.vout.read k = none) ∧ t.vlen = some 4#4 ∧
      Succeeded .vout [v.extractLsb' 0 8, v.extractLsb' 8 8, v.extractLsb' 16 8, v.extractLsb' 24 8] t ∧ OnlyVout s t

/-- 40_value_encoder.md R104. -/
def Obligations.Venc8GivesLowByteFirst : Prop :=
  ∀ (v : BitVec 64) (s : State), (Instr.venc8 v).command.word = 0x03#8 ∧
    ∃ t, exec (.venc8 v) s = .next t ∧ (∀ k < 8, t.vout.read k = some (v.extractLsb' (8 * k) 8)) ∧ t.vlen = some 8#4 ∧
      Succeeded .vout [v.extractLsb' 0 8, v.extractLsb' 8 8, v.extractLsb' 16 8, v.extractLsb' 24 8,
        v.extractLsb' 32 8, v.extractLsb' 40 8, v.extractLsb' 48 8, v.extractLsb' 56 8] t ∧ OnlyVout s t

/-- 40_value_encoder.md R105: the laws of `le`. (b), that every byte is in 0 to 255, is the byte's type; (a), (c), (d) and (f)
hold at every width, so at 1, 2, 4 and 8. -/
def Obligations.LawsOfTheLittleEndianImage : Prop :=
  (∀ (w : Nat) (v : BitVec (8 * w)), (le w v).length = w) ∧
  (∀ (w : Nat) (v : BitVec (8 * w)), littleEndian (le w v) = v.toNat) ∧
  (∀ (w : Nat) (v v' : BitVec (8 * w)), le w v = le w v' → v = v') ∧
  (∀ (w : Nat) (bs : List Byte), bs.length = w → ∃ v : BitVec (8 * w), le w v = bs) ∧
  (∀ (w w' : Nat) (v : BitVec (8 * w)), w ≤ w' → le w' (v.setWidth (8 * w')) = le w v ++ List.replicate (w' - w) 0#8) ∧
  (∀ v : BitVec 64, le 8 v = le 4 (v.setWidth 32) ++ le 4 ((v >>> 32).setWidth 32)) ∧
  (∀ v : BitVec 32, le 4 v = le 2 (v.setWidth 16) ++ le 2 ((v >>> 16).setWidth 16)) ∧
  (∀ v : BitVec 16, le 2 v = le 1 (v.setWidth 8) ++ le 1 ((v >>> 8).setWidth 8)) ∧
  (∀ v : BitVec 8, le 1 v = [v])

/-! ### The Record Encoder -/

/-- 41_record_encoder.md R111. -/
def Obligations.RencTcsGivesTheEightFields : Prop :=
  ∀ (pay : BitVec 64) (s : State), (Instr.rencTcs pay).command.word = 0x40#8 ∧
    ∃ t, exec (.rencTcs pay) s = .next t ∧ (∀ k < 8, t.record.read k = some (pay.extractLsb' (8 * k) 8)) ∧
      Succeeded .record [pay.extractLsb' 0 8, pay.extractLsb' 8 8, pay.extractLsb' 16 8, pay.extractLsb' 24 8,
        pay.extractLsb' 32 8, pay.extractLsb' 40 8, pay.extractLsb' 48 8, pay.extractLsb' 56 8] t ∧ OnlyRecord s t

/-- 41_record_encoder.md R112. -/
def Obligations.RencRqwGivesTheLittleEndianValue : Prop :=
  ∀ (pay : BitVec 64) (s : State), (Instr.rencRqw pay).command.word = 0x41#8 ∧
    ∃ t, exec (.rencRqw pay) s = .next t ∧ (∀ k < 8, t.record.read k = some (pay.extractLsb' (8 * k) 8)) ∧
      Succeeded .record (le 8 pay) t ∧ OnlyRecord s t

/-- 41_record_encoder.md R113: RENC.C raises MalformedRecord(0) on every payload. -/
def Obligations.RencCRaisesMalformedRecord : Prop :=
  ∀ (pay : BitVec 64) (s : State), (Instr.rencC pay).command.word = 0x42#8 ∧
    ∃ t, exec (.rencC pay) s = .next t ∧ Failed .record (.malformedRecord 0) t ∧ errCode t.err = 1#2 ∧
      errActual t.err = 0#4 ∧ (CoreError.malformedRecord 0).expected = some 8 ∧ OnlyRecord s t ∧
      ∀ pay', exec (.rencC pay') s = .next t

/-- 41_record_encoder.md R114: RENC.D raises MalformedRecord(0) on every payload. -/
def Obligations.RencDRaisesMalformedRecord : Prop :=
  ∀ (pay : BitVec 64) (s : State), (Instr.rencD pay).command.word = 0x43#8 ∧
    ∃ t, exec (.rencD pay) s = .next t ∧ Failed .record (.malformedRecord 0) t ∧ errCode t.err = 1#2 ∧
      errActual t.err = 0#4 ∧ (CoreError.malformedRecord 0).expected = some 8 ∧ OnlyRecord s t ∧
      ∀ pay', exec (.rencD pay') s = .next t

/-- 30_encoding.md R71: the TimedColorStep record is the eight fields in declared order, each unchanged, field k at payload
bits 8k+7 to 8k; so encode_step of a TimedColorStep (R94) answers them. -/
def Obligations.TimedColorStepRecordIsItsFields : Prop :=
  ∀ (f : TimedColorStep) (s : State), ∃ pay t, encodeStep (.timedColor f) = .rencTcs pay ∧
    pay.extractLsb' 0 8 = f.opcodeTarget ∧ pay.extractLsb' 8 8 = f.repeats ∧ pay.extractLsb' 16 8 = f.red ∧
    pay.extractLsb' 24 8 = f.green ∧ pay.extractLsb' 32 8 = f.blue ∧ pay.extractLsb' 40 8 = f.onTime ∧
    pay.extractLsb' 48 8 = f.offTime ∧ pay.extractLsb' 56 8 = f.padding ∧
    exec (encodeStep (.timedColor f)) s = .next t ∧
    Succeeded .record [f.opcodeTarget, f.repeats, f.red, f.green, f.blue, f.onTime, f.offTime, f.padding] t

/-- 41_record_encoder.md R116: the laws of `renc`. (e), that it depends on nothing but its arguments, is its type. -/
def Obligations.LawsOfRenc : Prop :=
  (∀ t pay, t = Tag.timedColorStep ∨ t = Tag.rawQuadWord → renc t pay = .ok (le 8 pay)) ∧
  (∀ t pay r, renc t pay = .ok r → r.length = 8) ∧
  (∀ t pay pay', t = Tag.timedColorStep ∨ t = Tag.rawQuadWord → renc t pay = renc t pay' → pay = pay') ∧
  (∀ p, renc .timedColorStep p = renc .rawQuadWord p) ∧
  renc .rawQuadWord 0#64 = .ok (List.replicate 8 0#8) ∧ renc .timedColorStep 0#64 = .ok (List.replicate 8 0#8)

/-- 30_encoding.md R92 and R93: EMPTY and KEEPALIVE, in raw form and encoded. -/
def Obligations.EmptyAndKeepAliveSlots : Prop :=
  emptySlot = ⟨.rawQuadWord, 0#64⟩ ∧ renc emptySlot.tag emptySlot.pay = .ok [0, 0, 0, 0, 0, 0, 0, 0] ∧
  keepAliveSlot = ⟨.timedColorStep, 0x000000000000008F#64⟩ ∧
  renc keepAliveSlot.tag keepAliveSlot.pay = .ok [0x8F, 0, 0, 0, 0, 0, 0, 0]

/-! ### The Packet Assembler -/

/-- 42_packet_assembler.md R120 on seven defined slots: every byte of BUF at its offset (20_memory.md R60), the response, the
flag, and what stays. -/
def Obligations.AsmPlacesRecordsAndMetadata : Prop :=
  ∀ (steps : List StepSlot) (md : Metadata) (s : State), Packable steps →
    (Instr.asm steps md).command.word = 0x87#8 ∧
    ∃ t B, exec (.asm steps md) s = .next t ∧
      (∀ i j x, steps[i]? = some x → j < 8 → t.buf.read (8 * i + j) = some (x.pay.extractLsb' (8 * j) 8)) ∧
      (∀ j < 8, t.buf.read (56 + j) = md.bytes[j]?) ∧
      Succeeded .buf B t ∧ B.length = 64 ∧ (∀ k < 64, t.buf.read k = B[k]?) ∧
      (∀ a, 64 ≤ a → t.buf.read a = s.buf.read a) ∧
      OnlyBuf s t ∧ t.mcopy = s.mcopy ∧ t.acc = s.acc ∧ t.off = 64#7

/-- 42_packet_assembler.md R125: the whole outcome of ASM as a function of its request. -/
def Obligations.AsmOutcomeFromTheRequest : Prop :=
  ∀ (steps : List StepSlot) (md : Metadata) (s : State), ∃ t, exec (.asm steps md) s = .next t ∧
    t.response = some (
      if steps.length ≠ 7 then .err (.invalidStepCount steps.length)
      else if ∃ x ∈ steps, ¬ slotDefined x then .err (.malformedRecord 0)
      else .ok (packetBytes steps md))

/-- 42_packet_assembler.md R124: the laws of ASM on seven defined slots. (a) to (c): what the bytes are; (d) and (e): the same
bytes exactly for the same payloads and Metadata; (f): whatever the state. -/
def Obligations.LawsOfAsm : Prop :=
  ∀ (steps : List StepSlot) (md : Metadata), Packable steps → ∃ B : List Byte,
    (∀ s, ∃ t, exec (.asm steps md) s = .next t ∧ t.response = some (.ok B)) ∧ B.length = 64 ∧
    (∀ i j x, steps[i]? = some x → j < 8 → B[8 * i + j]? = some (x.pay.extractLsb' (8 * j) 8)) ∧
    (∀ j < 8, B[56 + j]? = md.bytes[j]?) ∧
    ∀ (steps' : List StepSlot) (md' : Metadata), Packable steps' →
      ((∀ s, ∃ t, exec (.asm steps' md') s = .next t ∧ t.response = some (.ok B)) ↔
        steps'.map StepSlot.pay = steps.map StepSlot.pay ∧ md' = md)

/-! ### The errors of ASM and FRAME -/

/-- 60_exceptions.md R152: InvalidStepCount, when it is raised, what it records, and that nothing else raises it. The count is
checked before any slot (R155), so the slots' variants do not matter. -/
def Obligations.InvalidStepCountIsRaisedAndRecorded : Prop :=
  (∀ n, (CoreError.invalidStepCount n).code = 2#2 ∧ (CoreError.invalidStepCount n).expected = some 7) ∧
  (∀ (steps : List StepSlot) (md : Metadata) (s : State), steps.length ≤ 15 → steps.length ≠ 7 →
    (∃ t, exec (.asm steps md) s = .next t ∧ Failed .buf (.invalidStepCount steps.length) t ∧
      t.err = (BitVec.ofNat 8 steps.length <<< 4) ||| 0x02#8 ∧ OnlyBuf s t ∧
      t.mcopy = s.mcopy ∧ t.acc = s.acc ∧ t.off = s.off) ∧
    (∃ t, exec (.frame steps md) s = .next t ∧ Failed .buf (.invalidStepCount steps.length) t ∧
      t.err = (BitVec.ofNat 8 steps.length <<< 4) ||| 0x02#8 ∧ OnlyBuf s t ∧ t.acc = s.acc ∧ t.off = s.off)) ∧
  (∀ (i : Instr) (s t : State) (n : Nat), exec i s = .next t → t.response = some (.err (.invalidStepCount n)) →
    n ≠ 7 ∧ ∃ steps md, steps.length = n ∧ (i = .asm steps md ∨ i = .frame steps md))

/-- 60_exceptions.md R151: MalformedRecord, when it is raised, what it records, and that nothing else raises it. -/
def Obligations.MalformedRecordIsRaisedAndRecorded : Prop :=
  (∀ n, (CoreError.malformedRecord n).code = 1#2 ∧ (CoreError.malformedRecord n).expected = some 8) ∧
  (∀ (pay : BitVec 64) (s : State),
    (∃ t, exec (.rencC pay) s = .next t ∧ Failed .record (.malformedRecord 0) t ∧ t.err = 0x01#8) ∧
    (∃ t, exec (.rencD pay) s = .next t ∧ Failed .record (.malformedRecord 0) t ∧ t.err = 0x01#8)) ∧
  (∀ (steps : List StepSlot) (md : Metadata) (s : State), HasReserved steps →
    (∃ t, exec (.asm steps md) s = .next t ∧ Failed .buf (.malformedRecord 0) t ∧ t.err = 0x01#8 ∧ OnlyBuf s t ∧
      t.mcopy = s.mcopy ∧ t.acc = s.acc) ∧
    (∃ t, exec (.frame steps md) s = .next t ∧ Failed .buf (.malformedRecord 0) t ∧ t.err = 0x01#8 ∧ OnlyBuf s t ∧
      t.acc = s.acc)) ∧
  (∀ (i : Instr) (s t : State) (n : Nat), exec i s = .next t → t.response = some (.err (.malformedRecord n)) →
    n = 0 ∧ ((∃ pay, i = .rencC pay) ∨ (∃ pay, i = .rencD pay) ∨
      ∃ steps md, HasReserved steps ∧ (i = .asm steps md ∨ i = .frame steps md)))

/-- 60_exceptions.md R157: what the shared error entry leaves: the register's flag clear and no value in it, ERR's fields, the
response, and everything else as it was. -/
def Obligations.ErrorEntryClearsOnlyTheOwnRegister : Prop :=
  ∀ (r : ResultReg) (e : CoreError) (s : State), Failed r e (raise r e s) ∧
    errCode (raise r e s).err = e.code ∧ errActual (raise r e s).err = e.actualField ∧ errZero (raise r e s).err = 0#2 ∧
    (∀ r', r' ≠ r → (raise r e s).isValid r' = s.isValid r' ∧ (raise r e s).space r' = s.space r') ∧
    (r ≠ .vout → (raise r e s).vlen = s.vlen) ∧ validZero (raise r e s).valid = validZero s.valid ∧
    (raise r e s).mcopy = s.mcopy ∧ (raise r e s).acc = s.acc ∧ (raise r e s).off = s.off ∧
    (raise r e s).readData = s.readData ∧ (raise r e s).inputs = s.inputs

/-! ### The Checksum Framer -/

/-- 43_checksum_framer.md R131 (with R130's registers): what a FRAME of seven defined slots leaves in BUF and answers, the
checksum in the last two bytes, and the hidden registers. -/
def Obligations.FrameResultIsThePacketWithItsChecksum : Prop :=
  ∀ (steps : List StepSlot) (md : Metadata) (s : State), Packable steps →
    (Instr.frame steps md).command.word = 0xC7#8 ∧
    ∃ t B hi lo, exec (.frame steps md) s = .next t ∧ Succeeded .buf B t ∧ B.length = 64 ∧
      (∀ k < 64, t.buf.read k = B[k]?) ∧
      (∀ i j x, steps[i]? = some x → j < 8 → B[8 * i + j]? = some (x.pay.extractLsb' (8 * j) 8)) ∧
      (∀ j < 6, B[56 + j]? = md.bytes[j]?) ∧
      B[62]? = some hi ∧ B[63]? = some lo ∧ hi.toNat * 256 + lo.toNat = byteSum (B.take 62) % 65536 ∧
      (∀ a, 64 ≤ a → t.buf.read a = s.buf.read a) ∧ OnlyBuf s t ∧
      t.acc.toNat = byteSum (B.take 62) % 65536 ∧ t.off = 64#7 ∧
      t.mcopy = ⟨md.m0, md.m1, md.m2, md.m3, md.m4, md.m5, 0, 0⟩

/-- 43_checksum_framer.md R140: the whole outcome of FRAME; on an error the sum and the patch are not performed. -/
def Obligations.FrameOutcomeFromTheRequest : Prop :=
  ∀ (steps : List StepSlot) (md : Metadata) (s : State), ∃ t, exec (.frame steps md) s = .next t ∧
    t.response = some (
      if steps.length ≠ 7 then .err (.invalidStepCount steps.length)
      else if ∃ x ∈ steps, ¬ slotDefined x then .err (.malformedRecord 0)
      else .ok (patched (packetBytes steps (zeroChecksum md)))) ∧
    (¬ Packable steps → t.isValid .buf = false ∧ t.acc = s.acc ∧
      ∃ u, exec (.asm steps md) s = .next u ∧ u.response = t.response)

/-- 43_checksum_framer.md R135: no addition of the sum ever wraps, the checksum is the plain sum, at most 0x3DC2. -/
def Obligations.ChecksumNeverWraps : Prop :=
  ∀ (steps : List StepSlot) (md : Metadata) (s : State), Packable steps →
    ∃ t B hi lo, exec (.frame steps md) s = .next t ∧ t.response = some (.ok B) ∧
      (∀ n ≤ 62, (checksum (B.take n)).toNat = byteSum (B.take n)) ∧
      B[62]? = some hi ∧ B[63]? = some lo ∧ hi.toNat * 256 + lo.toNat = byteSum (B.take 62) ∧
      byteSum (B.take 62) ≤ 15810 ∧ hi.toNat ≤ 0x3D ∧ (hi.toNat = 0x3D → lo.toNat ≤ 0xC2)

/-- 43_checksum_framer.md R139: FRAME's response does not depend on `meta[6]` or `meta[7]`, nor on the state. -/
def Obligations.FrameIgnoresMetadataChecksumBytes : Prop :=
  ∀ (steps : List StepSlot) (md : Metadata) (b6 b7 : Byte) (s s' : State),
    ∃ t t', exec (.frame steps md) s = .next t ∧
      exec (.frame steps ⟨md.m0, md.m1, md.m2, md.m3, md.m4, md.m5, b6, b7⟩) s' = .next t' ∧ t'.response = t.response

/-- 43_checksum_framer.md R138: FRAME twice gives the same 64 bytes, also when the second is given an earlier result's
checksum bytes as Metadata. -/
def Obligations.FrameIsIdempotent : Prop :=
  ∀ (steps : List StepSlot) (md : Metadata) (s : State), Packable steps →
    ∃ t B hi lo, exec (.frame steps md) s = .next t ∧ t.response = some (.ok B) ∧ B[62]? = some hi ∧ B[63]? = some lo ∧
      (∃ u, exec (.frame steps md) t = .next u ∧ u.response = some (.ok B) ∧ ∀ k < 64, u.buf.read k = t.buf.read k) ∧
      (∃ u, exec (.frame steps ⟨md.m0, md.m1, md.m2, md.m3, md.m4, md.m5, hi, lo⟩) t = .next u ∧
        u.response = some (.ok B) ∧ ∀ k < 64, u.buf.read k = t.buf.read k)

/-- 43_checksum_framer.md R141: two framed packets that differ in exactly one of bytes 0 to 61 differ in the checksum. -/
def Obligations.SingleByteChangeChangesTheChecksum : Prop :=
  ∀ (steps steps' : List StepSlot) (md md' : Metadata) (s s' t t' : State) (B B' : List Byte) (k : Nat),
    exec (.frame steps md) s = .next t → t.response = some (.ok B) →
    exec (.frame steps' md') s' = .next t' → t'.response = some (.ok B') →
    k < 62 → B[k]? ≠ B'[k]? → (∀ j < 62, j ≠ k → B[j]? = B'[j]?) →
    ¬ (B[62]? = B'[62]? ∧ B[63]? = B'[63]?)

/-- 43_checksum_framer.md R137 and R141: two framed packets whose bytes 0 to 61 are the same in another order have the same
checksum. -/
def Obligations.ReorderedBytesKeepTheChecksum : Prop :=
  ∀ (steps steps' : List StepSlot) (md md' : Metadata) (s s' t t' : State) (B B' : List Byte),
    exec (.frame steps md) s = .next t → t.response = some (.ok B) →
    exec (.frame steps' md') s' = .next t' → t'.response = some (.ok B') →
    (B.take 62).Perm (B'.take 62) → B.drop 62 = B'.drop 62

/-- 43_checksum_framer.md R142: FRAME is the patched ASM of the Metadata with zeroed checksum bytes, and ASM is the slots'
records, as RENC encodes them, and the Metadata. -/
def Obligations.FrameIsThePatchedAssembly : Prop :=
  ∀ (steps : List StepSlot) (md : Metadata) (s : State), Packable steps →
    ∃ t u B rs, List.Forall₂ (fun (x : StepSlot) r => renc x.tag x.pay = .ok r) steps rs ∧
      B = rs.flatten ++ (zeroChecksum md).bytes ∧
      exec (.asm steps (zeroChecksum md)) s = .next t ∧ t.response = some (.ok B) ∧
      exec (.frame steps md) s = .next u ∧ u.response = some (.ok (patched B))

/-! ### The whole machine -/

/-- 10_state.md R33: an operation's response, ERR, and what it leaves in its own result register depend on the request
alone, not on the state it is served in. -/
def Obligations.ResponseDependsOnTheRequestAlone : Prop :=
  ∀ (i : Instr) (s s' : State), ∃ t t', exec i s = .next t ∧ exec i s' = .next t' ∧
    t.response = t'.response ∧ t.err = t'.err ∧ t.isValid (resultRegOf i) = t'.isValid (resultRegOf i) ∧
    ∀ k < (resultRegOf i).size, (t.space (resultRegOf i)).read k = (t'.space (resultRegOf i)).read k

/-- 60_exceptions.md R163, R170 and 10_state.md R34: every operation ends in a response the CORE can give, which ERR mirrors;
none faults and none is refused. -/
def Obligations.EveryOperationEndsInAResponse : Prop :=
  ∀ (i : Instr) (s : State), i.wellFormed = true →
    ∃ t r, exec i s = .next t ∧ t.response = some r ∧ r.possible ∧ t.err = errOfResponse (some r)

/-- 10_state.md R33, R44: the frame of every operation. Nothing outside its own unit's registers differs; ERR and the response
are the two every operation writes. -/
def Obligations.OperationsWriteOnlyTheirOwnRegisters : Prop :=
  ∀ (i : Instr) (s t : State), exec i s = .next t → WritesOnlyOwn i s t

/-- 00_scope.md R11: MemRead after MemWrite of the same width gives the value, and MemWrite changes no other offset. For a
width outside 1, 2, 4, 8 or an offset above 63 (20_memory.md R50) this is the model's choice (log entry 14, DESIGN CHOICE). -/
def Obligations.MemReadAfterMemWrite : Prop :=
  ∀ (s : State) (a n : Nat) (v : BitVec (8 * n)), memRead (memWrite s a n v) a n = some v.toNat ∧
    (∀ k < n, (memWrite s a n v).buf.read (a + k) = some (v.extractLsb' (8 * k) 8)) ∧
    ∀ x, ¬ (a ≤ x ∧ x < a + n) → (memWrite s a n v).buf.read x = s.buf.read x

/-- The invariant of a CORE instance holds right after reset. Its clause on OFF rests on the reset value the model chose for
that hidden register (log entry 2, DESIGN CHOICE), its clauses on the last response on a field of the model's own (log
entry 6). -/
def Obligations.ResetMeetsTheInvariant : Prop := State.reset.Inv

/-- Every step keeps the invariant of a CORE instance (10_state.md R30 to R36, R39, R42): a result register holds exactly its
result while its flag is 1 and nothing while it is 0, ERR mirrors the last response, which is one the CORE can give, the
reserved bits are 0, OFF is a multiple of 8 up to 64. From every state that meets it, not only those a run reaches.
The clause on OFF rests on the model in two places: a reset puts OFF at the value the model chose, where R43 leaves it
unspecified (log entry 2, DESIGN CHOICE), and after an error OFF keeps what the pseudocode wrote before the raise (log entry
9, DEDUCED). The clauses on the last response are about a field of the model's own (log entry 6), which a reset clears (log
entry 4, DEDUCED). -/
def Obligations.StepKeepsTheInvariant : Prop :=
  ∀ s t : State, s.Inv → step s = .next t → t.Inv

/-- Every step keeps the byte-addressed spaces in canonical form (log entry 8). -/
def Obligations.StepKeepsTheCanonicalForm : Prop :=
  ∀ s t : State, s.Canonical → step s = .next t → t.Canonical
end

