-- ==== Sys2Proof/Laws/Decode.lean ====
section
/-! SUPPORT. What each part of the decoder gives on what the encoder wrote, and which bytes each reads. -/

namespace Sys2Proof

@[simp] theorem Tag.ofBits_bits (t : Tag) : Tag.ofBits t.bits = t := by cases t <;> rfl

theorem Tag.bits_ofBits : ∀ t : BitVec 2, (Tag.ofBits t).bits = t := by decide

@[simp] theorem Width.ofCode_code (w : Width) : Width.ofCode w.code = w := by cases w <;> rfl

/-- Reading a command's own word gives the command back (30_encoding.md R85). -/
@[simp] theorem decodeCommand_word (c : Command) : decodeCommand c.word = some c := by
  obtain w | t | n | n := c
  · cases w <;> rfl
  · cases t <;> rfl
  · revert n; decide
  · revert n; decide

/-- A word that reads as a command is that command's word. -/
theorem word_of_decodeCommand {c : Byte} {cmd : Command} (h : decodeCommand c = some cmd) : cmd.word = c := by
  have key : ∀ c : Byte, (decodeCommand c).all (fun cmd => cmd.word == c) = true := by decide
  have := key c
  rw [h] at this
  simpa using this

@[simp] theorem length_putValue (n x : Nat) : (putValue n x).length = n := by
  induction n generalizing x with
  | zero => rfl
  | succ n ih => simp [putValue, ih]

theorem takeValue_putValue (n x : Nat) (rest : List Byte) :
    takeValue n (putValue n x ++ rest) = some (x % 256 ^ n, rest) := by
  induction n generalizing x with
  | zero => simp [putValue, takeValue, Nat.mod_one]
  | succ n ih =>
    simp only [putValue, List.cons_append, takeValue, ih]
    congr 2
    rw [Nat.pow_succ', Nat.mod_mul]
    simp

/-- Whatever reads as a number begins with that number's bytes. -/
theorem eq_of_takeValue {n : Nat} {bs rest : List Byte} {x : Nat} (h : takeValue n bs = some (x, rest)) :
    x < 256 ^ n ∧ bs = putValue n x ++ rest := by
  induction n generalizing bs x with
  | zero => cases h; exact ⟨by decide, rfl⟩
  | succ n ih =>
    cases bs with
    | nil => cases h
    | cons b bs =>
      simp only [takeValue] at h
      split at h
      case h_2 => cases h
      case h_1 y rest' hy =>
        cases h
        obtain ⟨hx, rfl⟩ := ih hy
        have hb := b.isLt
        have hd : (b.toNat + 256 * y) / 256 = y := by omega
        have hm : BitVec.ofNat 8 (b.toNat + 256 * y) = b := by apply BitVec.eq_of_toNat_eq; simp; omega
        exact ⟨by rw [Nat.pow_succ]; omega, by simp [putValue, hd, hm]⟩

@[simp] theorem length_slotBytes (x : StepSlot) : (slotBytes x).length = 9 := by simp [slotBytes]

@[simp] theorem length_slotsBytes (xs : List StepSlot) : (xs.flatMap slotBytes).length = 9 * xs.length := by
  induction xs with
  | nil => rfl
  | cons x xs ih => simp [List.flatMap_cons, ih]; omega

theorem tagByte_low : ∀ t : Tag, BitVec.extractLsb' 0 2 ((0#6 ++ t.bits : BitVec (6 + 2)) : BitVec 8) = t.bits := by
  intro t; cases t <;> rfl

theorem takeSlots_slotBytes (xs : List StepSlot) (rest : List Byte) :
    takeSlots xs.length (xs.flatMap slotBytes ++ rest) = some (xs, rest) := by
  induction xs with
  | nil => rfl
  | cons x xs ih =>
    obtain ⟨t, p⟩ := x
    have hp : p.toNat % 256 ^ 8 = p.toNat := Nat.mod_eq_of_lt p.isLt
    have htag := tagByte_low t
    simp only [List.flatMap_cons, slotBytes, List.length_cons, List.cons_append, List.append_assoc, takeSlots,
      takeValue_putValue, ih, hp, BitVec.ofNat_toNat, BitVec.setWidth_eq]
    simp only [htag, Tag.ofBits_bits]

/-- Whatever reads as slots is nine bytes a slot: those the encoder writes, but for the upper bits of each tag byte. -/
theorem eq_of_takeSlots {n : Nat} {bs rest : List Byte} {xs : List StepSlot} (h : takeSlots n bs = some (xs, rest)) :
    xs.length = n ∧ ∃ ys, bs = ys ++ rest ∧ ys.length = 9 * n ∧
      (∀ k, k % 9 ≠ 0 → ys[k]? = (xs.flatMap slotBytes)[k]?) ∧
      ∀ k, k % 9 = 0 → ys[k]?.map (BitVec.extractLsb' 0 2) = (xs.flatMap slotBytes)[k]?.map (BitVec.extractLsb' 0 2) := by
  induction n generalizing bs xs rest with
  | zero => cases h; exact ⟨rfl, [], rfl, rfl, by simp, by simp⟩
  | succ n ih =>
    cases bs with
    | nil => cases h
    | cons t bs =>
      simp only [takeSlots] at h
      split at h
      case h_1 => cases h
      case h_2 pay bs' hv =>
        split at h
        case h_1 => cases h
        case h_2 slots rest' hs =>
          cases h
          obtain ⟨hp, rfl⟩ := eq_of_takeValue hv
          obtain ⟨hl, ys, rfl, hy, hrest, htags⟩ := ih hs
          have hpay : (BitVec.ofNat 64 pay).toNat = pay := by rw [BitVec.toNat_ofNat]; exact Nat.mod_eq_of_lt hp
          refine ⟨by simp [hl], t :: (putValue 8 pay ++ ys), by simp, by simp [hy]; omega, ?_, ?_⟩ <;> intro k hk
          · obtain rfl | ⟨k, rfl⟩ : k = 0 ∨ ∃ j, k = j + 1 := by cases k <;> simp
            · simp at hk
            · simp only [List.flatMap_cons, slotBytes, hpay, List.cons_append, List.getElem?_cons_succ]
              rcases Nat.lt_or_ge k 8 with h8 | h8
              · rw [List.getElem?_append_left (by simpa using h8), List.getElem?_append_left (by simpa using h8)]
              · rw [List.getElem?_append_right (by simpa using h8), List.getElem?_append_right (by simpa using h8)]
                exact hrest _ (by rw [length_putValue]; omega)
          · obtain rfl | ⟨k, rfl⟩ : k = 0 ∨ ∃ j, k = j + 1 := by cases k <;> simp
            · simp only [List.flatMap_cons, slotBytes, List.cons_append, List.getElem?_cons_zero, Option.map_some]
              rw [tagByte_low, Tag.bits_ofBits]
            · simp only [List.flatMap_cons, slotBytes, hpay, List.cons_append, List.getElem?_cons_succ]
              rw [List.getElem?_append_right (by rw [length_putValue]; omega),
                List.getElem?_append_right (by rw [length_putValue]; omega)]
              exact htags _ (by rw [length_putValue]; omega)

@[simp] theorem takeMetadata_bytes (md : Metadata) (rest : List Byte) :
    takeMetadata (md.bytes ++ rest) = some (md, rest) := rfl

theorem eq_of_takeMetadata {bs rest : List Byte} {md : Metadata} (h : takeMetadata bs = some (md, rest)) :
    bs = md.bytes ++ rest := by
  unfold takeMetadata at h
  split at h
  · cases h; rfl
  · cases h

theorem takePacket_bytes (xs : List StepSlot) (md : Metadata) (rest : List Byte) :
    takePacket xs.length (xs.flatMap slotBytes ++ md.bytes ++ rest) = some ((xs, md), rest) := by
  simp [takePacket, takeSlots_slotBytes]

/-- Whatever reads as slots and Metadata is the bytes of slots as `eq_of_takeSlots` says, then the Metadata's. -/
theorem eq_of_takePacket {n : Nat} {bs rest : List Byte} {xs : List StepSlot} {md : Metadata}
    (h : takePacket n bs = some ((xs, md), rest)) : takeSlots n bs = some (xs, md.bytes ++ rest) := by
  unfold takePacket at h
  split at h
  · cases h
  · rename_i hs
    split at h
    · cases h
    · rename_i hm
      cases h
      rw [hs, eq_of_takeMetadata hm]

end Sys2Proof
end

