-- ==== Sys2Proof/Laws/Flags.lean ====
section
/-! SUPPORT. What setting and clearing a flag of VALID does to each flag, and the fields of an error's ERR word. -/

namespace Sys2Proof.Machine

@[simp] theorem validGet_validSet (v : BitVec 8) (r r' : ResultReg) :
    validGet (validSet v r) r' = (decide (r = r') || validGet v r') := by
  revert v; cases r <;> cases r' <;> decide

@[simp] theorem validGet_validClear (v : BitVec 8) (r r' : ResultReg) :
    validGet (validClear v r) r' = (!decide (r = r') && validGet v r') := by
  revert v; cases r <;> cases r' <;> decide

@[simp] theorem validZero_validSet (v : BitVec 8) (r : ResultReg) : validZero (validSet v r) = validZero v := by
  revert v; cases r <;> decide

@[simp] theorem validZero_validClear (v : BitVec 8) (r : ResultReg) : validZero (validClear v r) = validZero v := by
  revert v; cases r <;> decide

theorem isValid_def (s : State) (r : ResultReg) : s.isValid r = validGet s.valid r := rfl

@[simp] theorem raise_isValid (r : ResultReg) (e : CoreError) (s : State) (r' : ResultReg) :
    (raise r e s).isValid r' = (!decide (r = r') && s.isValid r') := by
  cases r <;> exact validGet_validClear _ _ _

theorem errCode_errWord (e : CoreError) : errCode e.errWord = e.code := by
  obtain ⟨n⟩ | ⟨n⟩ | _ := e
  · simp only [CoreError.errWord, CoreError.actualField, CoreError.code]
    generalize BitVec.ofNat 4 n = a; revert a; decide
  · simp only [CoreError.errWord, CoreError.actualField, CoreError.code]
    generalize BitVec.ofNat 4 n = a; revert a; decide
  · decide

theorem errActual_errWord (e : CoreError) : errActual e.errWord = e.actualField := by
  obtain ⟨n⟩ | ⟨n⟩ | _ := e
  · simp only [CoreError.errWord, CoreError.actualField, CoreError.code]
    generalize BitVec.ofNat 4 n = a; revert a; decide
  · simp only [CoreError.errWord, CoreError.actualField, CoreError.code]
    generalize BitVec.ofNat 4 n = a; revert a; decide
  · decide

theorem errZero_errWord (e : CoreError) : errZero e.errWord = 0#2 := by
  obtain ⟨n⟩ | ⟨n⟩ | _ := e
  · simp only [CoreError.errWord, CoreError.actualField, CoreError.code]
    generalize BitVec.ofNat 4 n = a; revert a; decide
  · simp only [CoreError.errWord, CoreError.actualField, CoreError.code]
    generalize BitVec.ofNat 4 n = a; revert a; decide
  · decide

end Sys2Proof.Machine
end

