-- ==== Sys2Proof/Laws/Memory.lean ====
section
/-! SUPPORT. What reading gives after writing, and that every operation on a byte-addressed space keeps the canonical
form. -/

namespace Sys2Proof.Machine

@[simp] theorem Memory.read_nil (a : Nat) : Memory.read [] a = none := rfl

theorem Memory.read_cons (k : Nat) (c : Byte) (m : Memory) (a : Nat) :
    Memory.read ((k, c) :: m) a = if a = k then some c else Memory.read m a := rfl

/-- Read after write: the written offset gives the written byte, every other offset what it gave before. -/
theorem Memory.read_write (m : Memory) (a : Nat) (b : Byte) (x : Nat) :
    (m.write a b).read x = if x = a then some b else m.read x := by
  induction m with
  | nil => simp [Memory.write, Memory.read]
  | cons c m ih =>
    obtain ⟨k, c⟩ := c
    by_cases h1 : a < k
    · simp [Memory.write, h1, Memory.read_cons]
    · by_cases h2 : a = k
      · subst h2; by_cases hx : x = a <;> simp [Memory.write, Memory.read_cons, hx]
      · by_cases hx : x = k
        · subst hx; simp [Memory.write, h1, h2, Memory.read_cons, Ne.symm h2]
        · simp [Memory.write, h1, h2, Memory.read_cons, hx, ih]

@[simp] theorem Memory.read_write_same (m : Memory) (a : Nat) (b : Byte) : (m.write a b).read a = some b := by
  simp [Memory.read_write]

/-- Read after writing bytes from `a` on. -/
theorem Memory.read_writeBytes (bs : List Byte) (m : Memory) (a x : Nat) :
    (m.writeBytes a bs).read x = if a ≤ x ∧ x < a + bs.length then bs[x - a]? else m.read x := by
  induction bs generalizing m a with
  | nil =>
    simp [Memory.writeBytes]
  | cons b bs ih =>
    rw [Memory.writeBytes, ih, Memory.read_write]
    rcases Nat.lt_trichotomy x a with h | h | h
    · have h1 : ¬(a + 1 ≤ x ∧ x < a + 1 + bs.length) := by omega
      have h2 : ¬(a ≤ x ∧ x < a + (b :: bs).length) := by omega
      simp only [h1, h2, if_false, show x ≠ a by omega]
    · subst h
      have h1 : ¬(x + 1 ≤ x ∧ x < x + 1 + bs.length) := by omega
      simp
    · obtain ⟨d, rfl⟩ : ∃ d, x = a + 1 + d := ⟨x - a - 1, by omega⟩
      have h3 : a + 1 + d - a = d + 1 := by omega
      have h4 : a + 1 + d - (a + 1) = d := by omega
      have h6 : (b :: bs).length = bs.length + 1 := rfl
      by_cases h5 : d < bs.length
      · rw [if_pos (by omega), if_pos (by omega), h3, h4, List.getElem?_cons_succ]
      · rw [if_neg (by omega), if_neg (by omega), if_neg (by omega)]

/-- The bytes just written are what reading them back gives. -/
theorem Memory.readBytes_of_read (m : Memory) (bs : List Byte) (a : Nat)
    (h : ∀ k < bs.length, m.read (a + k) = bs[k]?) : m.readBytes a bs.length = some bs := by
  induction bs generalizing a with
  | nil => rfl
  | cons b bs ih =>
    have h0 : m.read a = some b := by simpa using h 0 (by simp)
    have hs : m.readBytes (a + 1) bs.length = some bs := by
      apply ih
      intro k hk
      have := h (k + 1) (by simpa using hk)
      simpa [Nat.add_assoc, Nat.add_comm 1 k] using this
    simp [Memory.readBytes, h0, hs]

theorem Memory.readBytes_writeBytes (m : Memory) (a : Nat) (bs : List Byte) :
    (m.writeBytes a bs).readBytes a bs.length = some bs := by
  apply Memory.readBytes_of_read
  intro k hk
  rw [Memory.read_writeBytes, if_pos (by omega)]
  congr 1; omega

/-- What offsets 0 to `bs.length` - 1 hold, when they read as `bs`. -/
theorem Memory.held_of_read (m : Memory) (bs : List Byte) (h : ∀ k < bs.length, m.read k = bs[k]?) :
    m.held bs.length = bs := by
  have hm : (List.range bs.length).map m.read = bs.map some := by
    apply List.ext_getElem (by simp)
    intro k hk _
    have hk' : k < bs.length := by simpa using hk
    simp [h k hk', List.getElem?_eq_getElem hk']
  have : m.held bs.length = ((List.range bs.length).map m.read).filterMap id := by
    simp [Memory.held, List.filterMap_map]
  rw [this, hm]
  simp

theorem Memory.held_writeBytes (m : Memory) (bs : List Byte) : (m.writeBytes 0 bs).held bs.length = bs := by
  apply Memory.held_of_read
  intro k hk
  rw [Memory.read_writeBytes, if_pos (by omega), Nat.sub_zero]

/-- What `readBytes` gives is what the offsets read as. -/
theorem Memory.read_of_readBytes {m : Memory} {a n : Nat} {bs : List Byte} (h : m.readBytes a n = some bs) :
    bs.length = n ∧ ∀ k < n, m.read (a + k) = bs[k]? := by
  induction n generalizing a bs with
  | zero => cases h; simp
  | succ n ih =>
    simp only [Memory.readBytes] at h
    split at h
    case h_1 b bs' hb hbs =>
      cases h
      obtain ⟨hl, hr⟩ := ih hbs
      refine ⟨by simp [hl], fun k hk => ?_⟩
      cases k with
      | zero => simpa using hb
      | succ k => simpa [Nat.add_assoc, Nat.add_comm 1 k] using hr k (by omega)
    all_goals cases h

theorem Memory.writeBytes_append (xs ys : List Byte) (m : Memory) (a : Nat) :
    m.writeBytes a (xs ++ ys) = (m.writeBytes a xs).writeBytes (a + xs.length) ys := by
  induction xs generalizing m a with
  | nil => rfl
  | cons x xs ih =>
    rw [List.cons_append, Memory.writeBytes, ih, Memory.writeBytes]
    congr 1
    simp; omega

theorem Memory.read_dropFrom (m : Memory) (a x : Nat) :
    (m.dropFrom a).read x = if x < a then m.read x else none := by
  induction m with
  | nil => simp [Memory.dropFrom]
  | cons c m ih =>
    obtain ⟨k, c⟩ := c
    by_cases hk : k < a
    · have : Memory.dropFrom ((k, c) :: m) a = (k, c) :: Memory.dropFrom m a := by simp [Memory.dropFrom, hk]
      rw [this, Memory.read_cons, ih, Memory.read_cons]
      by_cases hx : x = k
      · subst hx; simp [hk]
      · simp [hx]
    · have : Memory.dropFrom ((k, c) :: m) a = Memory.dropFrom m a := by simp [Memory.dropFrom, hk]
      rw [this, ih, Memory.read_cons]
      by_cases hx : x < a
      · simp [hx, show x ≠ k by omega]
      · simp [hx]

/-! ### The canonical form -/

theorem Memory.risingFrom_mono {lo lo' : Nat} {m : Memory} (h : Memory.risingFrom lo m = true) (hl : lo' ≤ lo) :
    Memory.risingFrom lo' m = true := by
  cases m with
  | nil => rfl
  | cons c m =>
    simp only [Memory.risingFrom, Bool.and_eq_true, decide_eq_true_eq] at h ⊢
    exact ⟨by omega, h.2⟩

theorem Memory.risingFrom_write {lo : Nat} {m : Memory} (a : Nat) (b : Byte)
    (h : Memory.risingFrom lo m = true) (ha : lo ≤ a) : Memory.risingFrom lo (m.write a b) = true := by
  induction m generalizing lo with
  | nil => simp [Memory.write, Memory.risingFrom, ha]
  | cons c m ih =>
    obtain ⟨k, c⟩ := c
    simp only [Memory.risingFrom, Bool.and_eq_true, decide_eq_true_eq] at h
    simp only [Memory.write]
    split
    · simp [Memory.risingFrom, ha, h.2]; omega
    · split
      · subst_vars; simp [Memory.risingFrom, ha, h.2]
      · simp [Memory.risingFrom, h.1, ih h.2 (by omega)]

theorem Memory.wf_nil : Memory.wf [] = true := rfl

theorem Memory.wf_write {m : Memory} (a : Nat) (b : Byte) (h : m.wf = true) : (m.write a b).wf = true :=
  Memory.risingFrom_write a b h (Nat.zero_le a)

theorem Memory.wf_writeBytes (bs : List Byte) {m : Memory} (a : Nat) (h : m.wf = true) : (m.writeBytes a bs).wf = true := by
  induction bs generalizing m a with
  | nil => exact h
  | cons b bs ih => exact ih (a + 1) (Memory.wf_write a b h)

theorem Memory.risingFrom_dropFrom {lo : Nat} {m : Memory} (a : Nat) (h : Memory.risingFrom lo m = true) :
    Memory.risingFrom lo (m.dropFrom a) = true := by
  induction m generalizing lo with
  | nil => rfl
  | cons c m ih =>
    obtain ⟨k, c⟩ := c
    simp only [Memory.risingFrom, Bool.and_eq_true, decide_eq_true_eq] at h
    by_cases hk : k < a
    · have : Memory.dropFrom ((k, c) :: m) a = (k, c) :: Memory.dropFrom m a := by simp [Memory.dropFrom, hk]
      rw [this]; simp [Memory.risingFrom, h.1, ih h.2]
    · have : Memory.dropFrom ((k, c) :: m) a = Memory.dropFrom m a := by simp [Memory.dropFrom, hk]
      rw [this]; exact ih (Memory.risingFrom_mono h.2 (by omega))

theorem Memory.wf_dropFrom {m : Memory} (a : Nat) (h : m.wf = true) : (m.dropFrom a).wf = true :=
  Memory.risingFrom_dropFrom a h

/-- The canonical form is one form: two canonical spaces that read alike are equal. -/
theorem Memory.risingFrom_read {lo : Nat} {m : Memory} (h : Memory.risingFrom lo m = true) {x : Nat} (hx : x < lo) :
    m.read x = none := by
  induction m generalizing lo with
  | nil => rfl
  | cons c m ih =>
    obtain ⟨k, c⟩ := c
    simp only [Memory.risingFrom, Bool.and_eq_true, decide_eq_true_eq] at h
    rw [Memory.read_cons, if_neg (by omega)]
    exact ih h.2 (by omega)

theorem Memory.ext_risingFrom {lo : Nat} {m m' : Memory} (h : Memory.risingFrom lo m = true)
    (h' : Memory.risingFrom lo m' = true) (hr : ∀ x, m.read x = m'.read x) : m = m' := by
  induction m generalizing lo m' with
  | nil =>
    cases m' with
    | nil => rfl
    | cons c' m' => obtain ⟨k', c'⟩ := c'; have := hr k'; simp [Memory.read_cons] at this
  | cons c m ih =>
    obtain ⟨k, c⟩ := c
    simp only [Memory.risingFrom, Bool.and_eq_true, decide_eq_true_eq] at h
    cases m' with
    | nil => have := hr k; simp [Memory.read_cons] at this
    | cons c' m' =>
      obtain ⟨k', c'⟩ := c'
      simp only [Memory.risingFrom, Bool.and_eq_true, decide_eq_true_eq] at h'
      have hk : k = k' := by
        rcases Nat.lt_trichotomy k k' with hlt | heq | hgt
        · have := hr k
          rw [Memory.read_cons, Memory.read_cons, if_pos rfl, if_neg (by omega),
            Memory.risingFrom_read h'.2 (by omega)] at this
          cases this
        · exact heq
        · have := hr k'
          rw [Memory.read_cons, Memory.read_cons, if_pos rfl, if_neg (by omega),
            Memory.risingFrom_read h.2 (by omega)] at this
          cases this
      subst hk
      have hc : c = c' := by have := hr k; simpa [Memory.read_cons] using this
      subst hc
      congr 1
      refine ih h.2 h'.2 fun x => ?_
      by_cases hx : x = k
      · subst hx; rw [Memory.risingFrom_read h.2 (by omega), Memory.risingFrom_read h'.2 (by omega)]
      · have := hr x; simpa [Memory.read_cons, hx] using this

theorem Memory.ext_wf {m m' : Memory} (h : m.wf = true) (h' : m'.wf = true) (hr : ∀ x, m.read x = m'.read x) : m = m' :=
  Memory.ext_risingFrom h h' hr

/-! ### The offsets a space holds -/

/-- Offsets rising by one from `lo`: writing at offset `lo + n` appends one, writing below keeps them. -/
theorem Memory.offsets_write {m : Memory} {lo n a : Nat} (b : Byte)
    (h : m.map Prod.fst = List.range' lo n) (hl : lo ≤ a) (hu : a ≤ lo + n) :
    (m.write a b).map Prod.fst = List.range' lo (if a < lo + n then n else n + 1) := by
  induction m generalizing lo n with
  | nil =>
    have hn : n = 0 := by simpa using congrArg List.length h.symm
    subst hn
    have : a = lo := by omega
    subst this
    simp [Memory.write]
  | cons c m ih =>
    obtain ⟨k, c⟩ := c
    cases n with
    | zero => simp at h
    | succ n =>
      simp only [List.map_cons, List.range'_succ, List.cons.injEq] at h
      obtain ⟨rfl, h⟩ := h
      simp only [Memory.write]
      rw [if_neg (by omega)]
      split
      · subst_vars; rw [if_pos (by omega)]; simp [List.range'_succ, h]
      · have := ih h (by omega) (by omega)
        by_cases hlt : a < k + (n + 1)
        · rw [if_pos hlt]
          rw [if_pos (by omega)] at this
          simp [List.range'_succ, this]
        · rw [if_neg hlt]
          rw [if_neg (by omega)] at this
          simp [List.range'_succ, this]

/-- Writing bytes over a space that covers its first `n` offsets makes it cover as many as were written, if those are more. -/
theorem Memory.covers_writeBytes (bs : List Byte) {m : Memory} {n a : Nat} (h : m.covers n) (ha : a ≤ n) :
    (m.writeBytes a bs).covers (max n (a + bs.length)) := by
  induction bs generalizing m n a with
  | nil => rw [List.length_nil, Nat.add_zero, Nat.max_eq_left ha]; exact h
  | cons b bs ih =>
    rw [Memory.covers, List.range_eq_range'] at h
    have hw := Memory.offsets_write b h (Nat.zero_le a) (by omega)
    rw [Memory.writeBytes]
    by_cases hlt : a < n
    · rw [if_pos (by omega), ← List.range_eq_range'] at hw
      have := ih hw (a := a + 1) (by omega)
      convert this using 1; simp; omega
    · rw [if_neg (by omega), ← List.range_eq_range'] at hw
      have := ih hw (a := a + 1) (by omega)
      convert this using 1; simp; omega

theorem Memory.covers_nil : Memory.covers [] 0 := rfl

theorem Memory.covers_dropFrom {m : Memory} {n w : Nat} (h : m.covers n) (hw : w ≤ n) : (m.dropFrom w).covers w := by
  have key : (m.dropFrom w).map Prod.fst = (m.map Prod.fst).filter (fun k => decide (k < w)) := by
    simp [Memory.dropFrom, List.filter_map, Function.comp_def]
  rw [Memory.covers, key, h]
  obtain ⟨d, rfl⟩ : ∃ d, n = w + d := ⟨n - w, by omega⟩
  rw [List.range_add, List.filter_append, List.filter_eq_self.mpr, List.filter_eq_nil_iff.mpr, List.append_nil]
  · intro x hx; simp at hx; obtain ⟨y, _, rfl⟩ := hx; simp
  · intro x hx; simpa using hx

/-- A covered space is canonical, and its offsets below `n`, and no others, read as a byte. -/
theorem Memory.read_isSome_of_covers {m : Memory} {n : Nat} (h : m.covers n) (k : Nat) : (m.read k).isSome = decide (k < n) := by
  have key : ∀ m : Memory, (m.read k).isSome = decide (k ∈ m.map Prod.fst) := by
    intro m
    induction m with
    | nil => simp
    | cons c m ih =>
      obtain ⟨j, c⟩ := c
      rw [Memory.read_cons]
      by_cases hk : k = j
      · simp [hk]
      · simp only [hk, if_false, ih, List.map_cons, List.mem_cons, false_or]
  rw [key, h]; simp

theorem Memory.wf_of_covers {m : Memory} {n : Nat} (h : m.covers n) : m.wf = true := by
  have key : ∀ (m : Memory) (lo n : Nat), m.map Prod.fst = List.range' lo n → Memory.risingFrom lo m = true := by
    intro m
    induction m with
    | nil => intros; rfl
    | cons c m ih =>
      intro lo n h
      cases n with
      | zero => simp at h
      | succ n =>
        simp only [List.map_cons, List.range'_succ, List.cons.injEq] at h
        simp only [Memory.risingFrom, h.1, le_refl, decide_true, Bool.true_and]
        exact ih _ n h.2
  exact key m 0 n (by rw [h, List.range_eq_range'])

end Sys2Proof.Machine
end

