-- ==== Sys2Proof/Laws/Operands.lean ====
section
/-! SUPPORT. One lemma per function of operand and result assembly: the image's length and bytes, what `renc` answers, the
checksum as a sum. -/

namespace Sys2Proof.Machine

@[simp] theorem length_le (w : Nat) {n : Nat} (v : BitVec n) : (le w v).length = w := by simp [le]

theorem getElem?_le (w : Nat) {n : Nat} (v : BitVec n) (k : Nat) :
    (le w v)[k]? = if k < w then some (byteOf v k) else none := by
  by_cases h : k < w <;> simp [le, h]

/-- A defined variant's record is its payload, least significant byte first (41_record_encoder.md R116 a). -/
theorem renc_defined {x : StepSlot} (h : slotDefined x) : renc x.tag x.pay = .ok (le 8 x.pay) := by
  obtain ⟨t, p⟩ := x
  obtain h | h := h <;> cases h <;> rfl

/-- A reserved variant raises MalformedRecord(0) (41_record_encoder.md R113, R114). -/
theorem renc_reserved {x : StepSlot} (h : ¬ slotDefined x) : renc x.tag x.pay = .error (.malformedRecord 0) := by
  obtain ⟨t, p⟩ := x
  cases t
  · exact absurd (.inl rfl) h
  · exact absurd (.inr rfl) h
  · rfl
  · rfl

@[simp] theorem length_records (steps : List StepSlot) : (steps.flatMap fun x => le 8 x.pay).length = 8 * steps.length := by
  induction steps with
  | nil => rfl
  | cons x xs ih => simp only [List.flatMap_cons, List.length_append, length_le, ih, List.length_cons]; omega

@[simp] theorem length_metadataBytes (md : Metadata) : md.bytes.length = 8 := rfl

theorem length_packetBytes (steps : List StepSlot) (md : Metadata) :
    (packetBytes steps md).length = 8 * steps.length + 8 := by
  rw [packetBytes, List.length_append, length_records, length_metadataBytes]

/-- Byte `8i + j` of the records is byte `j` of slot `i`'s payload (20_memory.md R60). -/
theorem getElem?_records (steps : List StepSlot) (i j : Nat) (hj : j < 8) :
    (steps.flatMap fun x => le 8 x.pay)[8 * i + j]? = steps[i]?.map fun x => byteOf x.pay j := by
  induction steps generalizing i with
  | nil => simp
  | cons x xs ih =>
    rw [List.flatMap_cons]
    cases i with
    | zero =>
      rw [List.getElem?_append_left (by simp; omega)]
      rw [show 8 * 0 + j = j by omega, getElem?_le, if_pos hj]
      rfl
    | succ i =>
      rw [List.getElem?_append_right (by simp; omega), length_le, show 8 * (i + 1) + j - 8 = 8 * i + j by omega, ih]
      rfl

theorem foldl_addByte (bs : List Byte) (acc : BitVec 16) :
    bs.foldl addByte acc = acc + BitVec.ofNat 16 (byteSum bs) := by
  induction bs generalizing acc with
  | nil => simp [byteSum]
  | cons b bs ih =>
    rw [List.foldl_cons, ih]
    apply BitVec.eq_of_toNat_eq
    simp [addByte, byteSum]
    omega

/-- The accumulator's sum is the integers' sum modulo 65536 (43_checksum_framer.md R134). -/
theorem checksum_eq (bs : List Byte) : checksum bs = BitVec.ofNat 16 (byteSum bs) := by
  rw [checksum, foldl_addByte]; simp

theorem byteSum_le (bs : List Byte) : byteSum bs ≤ 255 * bs.length := by
  induction bs with
  | nil => simp [byteSum]
  | cons b bs ih =>
    have hb : b.toNat ≤ 255 := by have := b.isLt; omega
    simp only [byteSum, List.map_cons, List.sum_cons, List.length_cons] at ih ⊢
    omega

theorem checksum_bytes (c : BitVec 16) : (highByte c).toNat * 256 + (lowByte c).toNat = c.toNat := by
  have := c.isLt
  simp [highByte, lowByte, Nat.shiftRight_eq_div_pow]
  omega

end Sys2Proof.Machine
end

