-- ==== Sys2Proof/Laws/PerInstr.lean ====
section
/-! SUPPORT. Per instruction: a request's bytes are as many as its command word announces, never more than the longest
request (30_encoding.md R70, R79). -/

namespace Sys2Proof.Laws.RequestLength

/-- The request of a well-formed instruction is a command word and exactly the operand bytes of that command. -/
def Statement (i : Instr) : Prop :=
  i.wellFormed = true → (encode i).length = 1 + i.command.operandLength ∧ (encode i).length ≤ maxRequestLength

theorem count_toNat {steps : List StepSlot} (h : countFits steps = true) :
    (BitVec.ofNat 4 steps.length).toNat = steps.length := by
  simp only [countFits, Config.maxSteps, decide_eq_true_eq] at h
  rw [BitVec.toNat_ofNat]
  omega

theorem length_packetOperands (steps : List StepSlot) (md : Metadata) :
    (steps.flatMap slotBytes ++ md.bytes).length = 9 * steps.length + 8 := by
  rw [List.length_append, length_slotsBytes]; rfl

theorem venc1 (v : BitVec 8) : Statement (.venc1 v) := by
  intro _
  simp [encode, Instr.operandBytes, Instr.command, Command.operandLength, Width.bytes, maxRequestLength]

theorem venc2 (v : BitVec 16) : Statement (.venc2 v) := by
  intro _
  simp [encode, Instr.operandBytes, Instr.command, Command.operandLength, Width.bytes, maxRequestLength]

theorem venc4 (v : BitVec 32) : Statement (.venc4 v) := by
  intro _
  simp [encode, Instr.operandBytes, Instr.command, Command.operandLength, Width.bytes, maxRequestLength]

theorem venc8 (v : BitVec 64) : Statement (.venc8 v) := by
  intro _
  simp [encode, Instr.operandBytes, Instr.command, Command.operandLength, Width.bytes, maxRequestLength]

theorem rencTcs (pay : BitVec 64) : Statement (.rencTcs pay) := by
  intro _
  simp [encode, Instr.operandBytes, Instr.command, Command.operandLength, maxRequestLength]

theorem rencRqw (pay : BitVec 64) : Statement (.rencRqw pay) := by
  intro _
  simp [encode, Instr.operandBytes, Instr.command, Command.operandLength, maxRequestLength]

theorem rencC (pay : BitVec 64) : Statement (.rencC pay) := by
  intro _
  simp [encode, Instr.operandBytes, Instr.command, Command.operandLength, maxRequestLength]

theorem rencD (pay : BitVec 64) : Statement (.rencD pay) := by
  intro _
  simp [encode, Instr.operandBytes, Instr.command, Command.operandLength, maxRequestLength]

theorem asm (steps : List StepSlot) (md : Metadata) : Statement (.asm steps md) := by
  intro h
  have hc : countFits steps = true := h
  have hn := count_toNat hc
  simp only [countFits, Config.maxSteps, decide_eq_true_eq] at hc
  simp only [encode, Instr.operandBytes, Instr.command, Command.operandLength, List.length_cons,
    length_packetOperands, hn, maxRequestLength]
  omega

theorem frame (steps : List StepSlot) (md : Metadata) : Statement (.frame steps md) := by
  intro h
  have hc : countFits steps = true := h
  have hn := count_toNat hc
  simp only [countFits, Config.maxSteps, decide_eq_true_eq] at hc
  simp only [encode, Instr.operandBytes, Instr.command, Command.operandLength, List.length_cons,
    length_packetOperands, hn, maxRequestLength]
  omega

end Sys2Proof.Laws.RequestLength
end

