-- ==== Sys2Proof/Laws/State.lean ====
section
/-! SUPPORT. One lemma per field per update of State: what each named update leaves in each register. -/

namespace Sys2Proof.Machine

/-! ### A result register's bytes -/

@[simp] theorem space_vout (s : State) : s.space .vout = s.vout := rfl
@[simp] theorem space_record (s : State) : s.space .record = s.record := rfl
@[simp] theorem space_buf (s : State) : s.space .buf = s.buf := rfl

/-! ### IllegalCommand (60_exceptions.md R154) -/

@[simp] theorem takeIllegalCommand_vout (s : State) : (takeIllegalCommand s).vout = s.vout := rfl
@[simp] theorem takeIllegalCommand_vlen (s : State) : (takeIllegalCommand s).vlen = s.vlen := rfl
@[simp] theorem takeIllegalCommand_record (s : State) : (takeIllegalCommand s).record = s.record := rfl
@[simp] theorem takeIllegalCommand_buf (s : State) : (takeIllegalCommand s).buf = s.buf := rfl
@[simp] theorem takeIllegalCommand_err (s : State) : (takeIllegalCommand s).err = 0x03#8 := rfl
@[simp] theorem takeIllegalCommand_valid (s : State) : (takeIllegalCommand s).valid = s.valid := rfl
@[simp] theorem takeIllegalCommand_mcopy (s : State) : (takeIllegalCommand s).mcopy = s.mcopy := rfl
@[simp] theorem takeIllegalCommand_acc (s : State) : (takeIllegalCommand s).acc = s.acc := rfl
@[simp] theorem takeIllegalCommand_off (s : State) : (takeIllegalCommand s).off = s.off := rfl
@[simp] theorem takeIllegalCommand_response (s : State) : (takeIllegalCommand s).response = some (.err .illegalCommand) := rfl
@[simp] theorem takeIllegalCommand_readData (s : State) : (takeIllegalCommand s).readData = s.readData := rfl
@[simp] theorem takeIllegalCommand_inputs (s : State) : (takeIllegalCommand s).inputs = s.inputs := rfl

/-! ### Reset (70_reset_and_hazards.md R180) -/

@[simp] theorem hardReset_vout (s : State) : (hardReset s).vout = State.reset.vout := rfl
@[simp] theorem hardReset_vlen (s : State) : (hardReset s).vlen = State.reset.vlen := rfl
@[simp] theorem hardReset_record (s : State) : (hardReset s).record = State.reset.record := rfl
@[simp] theorem hardReset_buf (s : State) : (hardReset s).buf = State.reset.buf := rfl
@[simp] theorem hardReset_err (s : State) : (hardReset s).err = State.reset.err := rfl
@[simp] theorem hardReset_valid (s : State) : (hardReset s).valid = State.reset.valid := rfl
@[simp] theorem hardReset_mcopy (s : State) : (hardReset s).mcopy = State.reset.mcopy := rfl
@[simp] theorem hardReset_acc (s : State) : (hardReset s).acc = State.reset.acc := rfl
@[simp] theorem hardReset_off (s : State) : (hardReset s).off = State.reset.off := rfl
@[simp] theorem hardReset_response (s : State) : (hardReset s).response = State.reset.response := rfl
@[simp] theorem hardReset_readData (s : State) : (hardReset s).readData = State.reset.readData := rfl
@[simp] theorem hardReset_inputs (s : State) : (hardReset s).inputs = s.inputs := rfl

/-! ### Placing eight bytes (42_packet_assembler.md R120) -/

@[simp] theorem placeBlock_vout (bs : List Byte) (s : State) : (placeBlock bs s).vout = s.vout := rfl
@[simp] theorem placeBlock_vlen (bs : List Byte) (s : State) : (placeBlock bs s).vlen = s.vlen := rfl
@[simp] theorem placeBlock_record (bs : List Byte) (s : State) : (placeBlock bs s).record = s.record := rfl
@[simp] theorem placeBlock_buf (bs : List Byte) (s : State) : (placeBlock bs s).buf = s.buf.writeBytes s.off.toNat bs := rfl
@[simp] theorem placeBlock_err (bs : List Byte) (s : State) : (placeBlock bs s).err = s.err := rfl
@[simp] theorem placeBlock_valid (bs : List Byte) (s : State) : (placeBlock bs s).valid = s.valid := rfl
@[simp] theorem placeBlock_mcopy (bs : List Byte) (s : State) : (placeBlock bs s).mcopy = s.mcopy := rfl
@[simp] theorem placeBlock_acc (bs : List Byte) (s : State) : (placeBlock bs s).acc = s.acc := rfl
@[simp] theorem placeBlock_off (bs : List Byte) (s : State) : (placeBlock bs s).off = s.off + 8#7 := rfl
@[simp] theorem placeBlock_response (bs : List Byte) (s : State) : (placeBlock bs s).response = s.response := rfl
@[simp] theorem placeBlock_readData (bs : List Byte) (s : State) : (placeBlock bs s).readData = s.readData := rfl
@[simp] theorem placeBlock_inputs (bs : List Byte) (s : State) : (placeBlock bs s).inputs = s.inputs := rfl

/-! ### The checksum patch (43_checksum_framer.md R130) -/

@[simp] theorem patchChecksum_vout (s : State) : (patchChecksum s).vout = s.vout := rfl
@[simp] theorem patchChecksum_vlen (s : State) : (patchChecksum s).vlen = s.vlen := rfl
@[simp] theorem patchChecksum_record (s : State) : (patchChecksum s).record = s.record := rfl
@[simp] theorem patchChecksum_buf (s : State) : (patchChecksum s).buf = s.buf.writeBytes 62 [highByte s.acc, lowByte s.acc] := rfl
@[simp] theorem patchChecksum_err (s : State) : (patchChecksum s).err = s.err := rfl
@[simp] theorem patchChecksum_valid (s : State) : (patchChecksum s).valid = s.valid := rfl
@[simp] theorem patchChecksum_mcopy (s : State) : (patchChecksum s).mcopy = s.mcopy := rfl
@[simp] theorem patchChecksum_acc (s : State) : (patchChecksum s).acc = s.acc := rfl
@[simp] theorem patchChecksum_off (s : State) : (patchChecksum s).off = s.off := rfl
@[simp] theorem patchChecksum_response (s : State) : (patchChecksum s).response = s.response := rfl
@[simp] theorem patchChecksum_readData (s : State) : (patchChecksum s).readData = s.readData := rfl
@[simp] theorem patchChecksum_inputs (s : State) : (patchChecksum s).inputs = s.inputs := rfl

/-! ### MemWrite (00_scope.md R11) -/

@[simp] theorem memWrite_vout {bits : Nat} (s : State) (a n : Nat) (v : BitVec bits) : (memWrite s a n v).vout = s.vout := rfl
@[simp] theorem memWrite_vlen {bits : Nat} (s : State) (a n : Nat) (v : BitVec bits) : (memWrite s a n v).vlen = s.vlen := rfl
@[simp] theorem memWrite_record {bits : Nat} (s : State) (a n : Nat) (v : BitVec bits) : (memWrite s a n v).record = s.record := rfl
@[simp] theorem memWrite_buf {bits : Nat} (s : State) (a n : Nat) (v : BitVec bits) : (memWrite s a n v).buf = s.buf.writeBytes a ((List.range n).map (byteOf v)) := rfl
@[simp] theorem memWrite_err {bits : Nat} (s : State) (a n : Nat) (v : BitVec bits) : (memWrite s a n v).err = s.err := rfl
@[simp] theorem memWrite_valid {bits : Nat} (s : State) (a n : Nat) (v : BitVec bits) : (memWrite s a n v).valid = s.valid := rfl
@[simp] theorem memWrite_mcopy {bits : Nat} (s : State) (a n : Nat) (v : BitVec bits) : (memWrite s a n v).mcopy = s.mcopy := rfl
@[simp] theorem memWrite_acc {bits : Nat} (s : State) (a n : Nat) (v : BitVec bits) : (memWrite s a n v).acc = s.acc := rfl
@[simp] theorem memWrite_off {bits : Nat} (s : State) (a n : Nat) (v : BitVec bits) : (memWrite s a n v).off = s.off := rfl
@[simp] theorem memWrite_response {bits : Nat} (s : State) (a n : Nat) (v : BitVec bits) : (memWrite s a n v).response = s.response := rfl
@[simp] theorem memWrite_readData {bits : Nat} (s : State) (a n : Nat) (v : BitVec bits) : (memWrite s a n v).readData = s.readData := rfl
@[simp] theorem memWrite_inputs {bits : Nat} (s : State) (a n : Nat) (v : BitVec bits) : (memWrite s a n v).inputs = s.inputs := rfl

/-! ### A request issued by the host (60_exceptions.md R167) -/

@[simp] theorem issueFirst_vout (bs : List Byte) (s : State) : (issueFirst bs s).vout = s.vout := rfl
@[simp] theorem issueFirst_vlen (bs : List Byte) (s : State) : (issueFirst bs s).vlen = s.vlen := rfl
@[simp] theorem issueFirst_record (bs : List Byte) (s : State) : (issueFirst bs s).record = s.record := rfl
@[simp] theorem issueFirst_buf (bs : List Byte) (s : State) : (issueFirst bs s).buf = s.buf := rfl
@[simp] theorem issueFirst_err (bs : List Byte) (s : State) : (issueFirst bs s).err = s.err := rfl
@[simp] theorem issueFirst_valid (bs : List Byte) (s : State) : (issueFirst bs s).valid = s.valid := rfl
@[simp] theorem issueFirst_mcopy (bs : List Byte) (s : State) : (issueFirst bs s).mcopy = s.mcopy := rfl
@[simp] theorem issueFirst_acc (bs : List Byte) (s : State) : (issueFirst bs s).acc = s.acc := rfl
@[simp] theorem issueFirst_off (bs : List Byte) (s : State) : (issueFirst bs s).off = s.off := rfl
@[simp] theorem issueFirst_response (bs : List Byte) (s : State) : (issueFirst bs s).response = s.response := rfl
@[simp] theorem issueFirst_readData (bs : List Byte) (s : State) : (issueFirst bs s).readData = s.readData := rfl
@[simp] theorem issueFirst_inputs (bs : List Byte) (s : State) : (issueFirst bs s).inputs = .request bs :: s.inputs := rfl

/-! ### Invalidating a result register and raising an error (60_exceptions.md R157) -/

@[simp] theorem invalidate_err (s : State) (r : ResultReg) : (s.invalidate r).err = s.err := by cases r <;> rfl
@[simp] theorem invalidate_mcopy (s : State) (r : ResultReg) : (s.invalidate r).mcopy = s.mcopy := by cases r <;> rfl
@[simp] theorem invalidate_acc (s : State) (r : ResultReg) : (s.invalidate r).acc = s.acc := by cases r <;> rfl
@[simp] theorem invalidate_off (s : State) (r : ResultReg) : (s.invalidate r).off = s.off := by cases r <;> rfl
@[simp] theorem invalidate_response (s : State) (r : ResultReg) : (s.invalidate r).response = s.response := by cases r <;> rfl
@[simp] theorem invalidate_readData (s : State) (r : ResultReg) : (s.invalidate r).readData = s.readData := by cases r <;> rfl
@[simp] theorem invalidate_inputs (s : State) (r : ResultReg) : (s.invalidate r).inputs = s.inputs := by cases r <;> rfl
@[simp] theorem invalidate_valid (s : State) (r : ResultReg) : (s.invalidate r).valid = validClear s.valid r := by cases r <;> rfl

@[simp] theorem raise_err (r : ResultReg) (e : CoreError) (s : State) : (raise r e s).err = e.errWord := rfl
@[simp] theorem raise_response (r : ResultReg) (e : CoreError) (s : State) : (raise r e s).response = some (.err e) := rfl
@[simp] theorem raise_valid (r : ResultReg) (e : CoreError) (s : State) : (raise r e s).valid = validClear s.valid r := by cases r <;> rfl
@[simp] theorem raise_mcopy (r : ResultReg) (e : CoreError) (s : State) : (raise r e s).mcopy = s.mcopy := by cases r <;> rfl
@[simp] theorem raise_acc (r : ResultReg) (e : CoreError) (s : State) : (raise r e s).acc = s.acc := by cases r <;> rfl
@[simp] theorem raise_off (r : ResultReg) (e : CoreError) (s : State) : (raise r e s).off = s.off := by cases r <;> rfl
@[simp] theorem raise_readData (r : ResultReg) (e : CoreError) (s : State) : (raise r e s).readData = s.readData := by cases r <;> rfl
@[simp] theorem raise_inputs (r : ResultReg) (e : CoreError) (s : State) : (raise r e s).inputs = s.inputs := by cases r <;> rfl
@[simp] theorem raise_record_vout (e : CoreError) (s : State) : (raise .record e s).vout = s.vout := rfl
@[simp] theorem raise_record_vlen (e : CoreError) (s : State) : (raise .record e s).vlen = s.vlen := rfl
@[simp] theorem raise_record_buf (e : CoreError) (s : State) : (raise .record e s).buf = s.buf := rfl
@[simp] theorem raise_record_clears_record (e : CoreError) (s : State) : (raise .record e s).record = [] := rfl
@[simp] theorem raise_buf_vout (e : CoreError) (s : State) : (raise .buf e s).vout = s.vout := rfl
@[simp] theorem raise_buf_vlen (e : CoreError) (s : State) : (raise .buf e s).vlen = s.vlen := rfl
@[simp] theorem raise_buf_record (e : CoreError) (s : State) : (raise .buf e s).record = s.record := rfl
@[simp] theorem raise_buf_clears_buf (e : CoreError) (s : State) : (raise .buf e s).buf = [] := rfl
@[simp] theorem raise_vout_record (e : CoreError) (s : State) : (raise .vout e s).record = s.record := rfl
@[simp] theorem raise_vout_buf (e : CoreError) (s : State) : (raise .vout e s).buf = s.buf := rfl
@[simp] theorem raise_vout_clears_vout (e : CoreError) (s : State) : (raise .vout e s).vout = [] := rfl
@[simp] theorem raise_vout_clears_vlen (e : CoreError) (s : State) : (raise .vout e s).vlen = none := rfl

end Sys2Proof.Machine
end

