-- ==== Sys2Proof/Laws/Units.lean ====
section
/-! SUPPORT. One lemma per shared operation and unit: everything it can answer, as an equation. Callers cite these and do
not unfold the operation. -/

namespace Sys2Proof.Machine

/-- The state `Ok(bs)` leaves (60_exceptions.md R159). -/
def succeed (r : ResultReg) (bs : List Byte) (s : State) : State :=
  { s with valid := validSet s.valid r, err := 0x00#8, response := some (.ok bs) }

/-- `returnOk` is success with the bytes the register's offsets read as. -/
theorem returnOk_of_read {r : ResultReg} {n : Nat} {s : State} {bs : List Byte} (hl : bs.length = n)
    (h : ∀ k < bs.length, (s.space r).read k = bs[k]?) : returnOk r n s = succeed r bs s := by
  rw [returnOk, ← hl, Memory.held_of_read _ _ h, succeed]

/-- `returnOk` right after the result was written from offset 0 on. -/
theorem returnOk_of_writeBytes {r : ResultReg} {n : Nat} {s : State} {bs : List Byte} (m : Memory) (hl : bs.length = n)
    (h : s.space r = m.writeBytes 0 bs) : returnOk r n s = succeed r bs s := by
  rw [returnOk, ← hl, h, Memory.held_writeBytes, succeed]

theorem raise_failed (r : ResultReg) (e : CoreError) (s : State) : Failed r e (raise r e s) where
  response := rfl
  err := rfl
  flag := by simp
  noValue := by cases r <;> intro k <;> rfl

theorem succeed_succeeded (r : ResultReg) (bs : List Byte) (s : State) : Succeeded r bs (succeed r bs s) where
  response := rfl
  err := rfl
  flag := by simp [isValid_def, succeed]

@[simp] theorem valueOrFault_some (b : Byte) : valueOrFault (some b) = .ok b := rfl
@[simp] theorem valueOrFault_none : valueOrFault none = .error .noValue := rfl

/-- What a host read of a byte register answers: the byte, when the flag is set and the offset holds one. -/
theorem readSpace_ok {s : State} {r : ResultReg} {len k : Nat} {b : Byte} (hk : k < len) (hv : s.isValid r = true)
    (hb : (s.space r).read k = some b) : readSpace s r len k = .ok b := by
  simp [readSpace, show ¬ len ≤ k by omega, hv, hb]

/-- A host read of a register whose flag is 0 is the fault `noValue` (10_state.md R36). -/
theorem readSpace_invalid {s : State} {r : ResultReg} {len k : Nat} (hk : k < len) (hv : s.isValid r = false) :
    readSpace s r len k = .error .noValue := by
  simp [readSpace, show ¬ len ≤ k by omega, hv]

/-- A host read of an offset that holds no value (10_state.md R30, R36). -/
theorem readSpace_absent {s : State} {r : ResultReg} {len k : Nat} (hk : k < len) (hb : (s.space r).read k = none) :
    readSpace s r len k = .error .noValue := by
  simp [readSpace, show ¬ len ≤ k by omega, hb]

/-! ### The units -/

/-- VENC's answer (40_value_encoder.md R101 to R104). -/
theorem encodeValue_eq (w : Nat) {n : Nat} (v : BitVec n) (s : State) :
    encodeValue w v s = .next (succeed .vout (le w v)
      { s with vout := (s.vout.writeBytes 0 (le w v)).dropFrom w, vlen := some (BitVec.ofNat 4 w) }) := by
  refine congrArg Host.Outcome.next (returnOk_of_read (length_le w v) fun k hk => ?_)
  rw [length_le] at hk
  simp [State.space, Memory.read_dropFrom, Memory.read_writeBytes, hk]

/-- RENC's answer for a defined variant (41_record_encoder.md R111, R112). -/
theorem encodeRecord_defined {t : Tag} {pay : BitVec 64} (h : slotDefined ⟨t, pay⟩) (s : State) :
    encodeRecord t pay s = .next (succeed .record (le 8 pay) { s with record := s.record.writeBytes 0 (le 8 pay) }) := by
  have hr : renc t pay = .ok (le 8 pay) := renc_defined h
  simp only [encodeRecord, hr]
  rw [returnOk_of_writeBytes s.record (length_le 8 pay) rfl]

/-- RENC's answer for a reserved variant (41_record_encoder.md R113, R114). -/
theorem encodeRecord_reserved {t : Tag} {pay : BitVec 64} (h : ¬ slotDefined ⟨t, pay⟩) (s : State) :
    encodeRecord t pay s = .next (raise .record (.malformedRecord 0) s) := by
  have hr : renc t pay = .error (.malformedRecord 0) := renc_reserved h
  simp only [encodeRecord, hr]

/-- Defined slots are placed one after another from OFF on (42_packet_assembler.md R120). -/
theorem placeSlots_defined (xs : List StepSlot) (s : State) (hd : ∀ x ∈ xs, slotDefined x)
    (ho : s.off.toNat + 8 * xs.length < 128) :
    placeSlots xs s = .ok { s with
      buf := s.buf.writeBytes s.off.toNat (xs.flatMap fun x => le 8 x.pay)
      off := s.off + BitVec.ofNat 7 (8 * xs.length) } := by
  induction xs generalizing s with
  | nil => simp [placeSlots, Memory.writeBytes]
  | cons x xs ih =>
    rw [List.length_cons] at ho
    have hoff : (placeBlock (le 8 x.pay) s).off.toNat = s.off.toNat + 8 := by simp [placeBlock]; omega
    have hsum : s.off + 8#7 + BitVec.ofNat 7 (8 * xs.length) = s.off + BitVec.ofNat 7 (8 * (x :: xs).length) := by
      apply BitVec.eq_of_toNat_eq; simp; omega
    simp only [placeSlots, renc_defined (hd x (by simp))]
    rw [ih _ (fun y hy => hd y (by simp [hy])) (by rw [hoff]; omega), hoff]
    simp only [placeBlock, List.flatMap_cons, Memory.writeBytes_append, length_le, hsum]

/-- The first reserved slot ends the loop, with the earlier records placed and OFF at it (42_packet_assembler.md R122). -/
theorem placeSlots_reserved (pre : List StepSlot) (x : StepSlot) (post : List StepSlot) (s : State)
    (hd : ∀ y ∈ pre, slotDefined y) (hx : ¬ slotDefined x) (ho : s.off.toNat + 8 * pre.length < 128) :
    placeSlots (pre ++ x :: post) s = .error (.malformedRecord 0, { s with
      buf := s.buf.writeBytes s.off.toNat (pre.flatMap fun y => le 8 y.pay)
      off := s.off + BitVec.ofNat 7 (8 * pre.length) }) := by
  induction pre generalizing s with
  | nil => simp [placeSlots, renc_reserved hx, Memory.writeBytes]
  | cons y pre ih =>
    rw [List.length_cons] at ho
    have hoff : (placeBlock (le 8 y.pay) s).off.toNat = s.off.toNat + 8 := by simp [placeBlock]; omega
    have hsum : s.off + 8#7 + BitVec.ofNat 7 (8 * pre.length) = s.off + BitVec.ofNat 7 (8 * (y :: pre).length) := by
      apply BitVec.eq_of_toNat_eq; simp; omega
    simp only [List.cons_append, placeSlots, renc_defined (hd y (by simp))]
    rw [ih _ (fun z hz => hd z (by simp [hz])) (by rw [hoff]; omega), hoff]
    simp only [placeBlock, List.flatMap_cons, Memory.writeBytes_append, length_le, hsum]

/-- A step list with a reserved slot, cut at the first one. -/
theorem split_at_reserved {xs : List StepSlot} (h : ∃ x ∈ xs, ¬ slotDefined x) :
    ∃ pre x post, xs = pre ++ x :: post ∧ (∀ y ∈ pre, slotDefined y) ∧ ¬ slotDefined x := by
  induction xs with
  | nil => obtain ⟨x, hx, _⟩ := h; cases hx
  | cons y ys ih =>
    by_cases hy : slotDefined y
    · obtain ⟨x, hx, hn⟩ := h
      have hmem : x ∈ ys := by
        rcases List.mem_cons.mp hx with rfl | hx
        · exact absurd hy hn
        · exact hx
      obtain ⟨pre, z, post, rfl, hp, hz⟩ := ih ⟨x, hmem, hn⟩
      exact ⟨y :: pre, z, post, rfl, by simpa using ⟨hy, hp⟩, hz⟩
    · exact ⟨[], y, ys, rfl, by simp, hy⟩

/-- The operation part of ASM on seven defined slots: the packet's bytes from offset 0 on, OFF at 64. -/
theorem assemblePart_packable {steps : List StepSlot} (h : Packable steps) (md : Metadata) (s : State) :
    assemblePart steps md s = .ok { s with buf := s.buf.writeBytes 0 (packetBytes steps md), off := 64#7 } := by
  obtain ⟨hl, hd⟩ := h
  rw [assemblePart, if_neg (by simp [hl])]
  rw [placeSlots_defined _ _ hd (by simp [hl])]
  simp [placeBlock, packetBytes, Memory.writeBytes_append, hl]

/-- The operation part of ASM on another count (42_packet_assembler.md R121). -/
theorem assemblePart_wrongCount {steps : List StepSlot} (h : steps.length ≠ 7) (md : Metadata) (s : State) :
    assemblePart steps md s = .error (.invalidStepCount steps.length, s) := by
  rw [assemblePart, if_pos h]

/-- The operation part of ASM on seven slots with a reserved one: MalformedRecord(0), OFF at the first such slot. -/
theorem assemblePart_reserved {steps : List StepSlot} (h : HasReserved steps) (md : Metadata) (s : State) :
    ∃ i < 7, assemblePart steps md s = .error (.malformedRecord 0, { s with
      buf := s.buf.writeBytes 0 ((steps.take i).flatMap fun y => le 8 y.pay), off := BitVec.ofNat 7 (8 * i) }) := by
  obtain ⟨hl, hx⟩ := h
  obtain ⟨pre, x, post, rfl, hp, hx⟩ := split_at_reserved hx
  have hlen : pre.length < 7 := by simp at hl; omega
  refine ⟨pre.length, hlen, ?_⟩
  rw [assemblePart, if_neg (by simp only [hl, Config.nSteps]; simp),
    placeSlots_reserved pre x post _ hp hx (by simp; omega)]
  simp

/-- ASM's answer on seven defined slots (42_packet_assembler.md R120). -/
theorem execAsm_packable {steps : List StepSlot} (h : Packable steps) (md : Metadata) (s : State) :
    execAsm steps md s = .next (succeed .buf (packetBytes steps md)
      { s with buf := s.buf.writeBytes 0 (packetBytes steps md), off := 64#7 }) := by
  simp only [execAsm, assemblePart_packable h]
  rw [returnOk_of_writeBytes s.buf (by rw [length_packetBytes, h.1]) rfl]

theorem execAsm_wrongCount {steps : List StepSlot} (h : steps.length ≠ 7) (md : Metadata) (s : State) :
    execAsm steps md s = .next (raise .buf (.invalidStepCount steps.length) s) := by
  rw [execAsm, assemblePart_wrongCount h]

theorem execAsm_reserved {steps : List StepSlot} (h : HasReserved steps) (md : Metadata) (s : State) :
    ∃ i < 7, execAsm steps md s = .next (raise .buf (.malformedRecord 0) { s with off := BitVec.ofNat 7 (8 * i) }) := by
  obtain ⟨i, hi, he⟩ := assemblePart_reserved h md s
  exact ⟨i, hi, by rw [execAsm, he]; rfl⟩

/-- The bytes FRAME's sum reads are the packet's first sixty-two. -/
theorem sumBuffer_packable {steps : List StepSlot} (h : steps.length = 7) (md : Metadata) (m : Memory) (s : State)
    (hb : s.buf = m.writeBytes 0 (packetBytes steps md)) :
    sumBuffer s = { s with acc := checksum ((packetBytes steps md).take 62) } := by
  have hl : (packetBytes steps md).length = 64 := by rw [length_packetBytes, h]
  have hr := Memory.held_of_read s.buf ((packetBytes steps md).take 62) fun k hk => by
    rw [List.length_take, hl] at hk
    rw [hb, Memory.read_writeBytes, if_pos (by omega), List.getElem?_take_of_lt (by omega), Nat.sub_zero]
  rw [List.length_take, hl, show min 62 64 = Config.csumSpan from rfl] at hr
  rw [sumBuffer, hr]

theorem length_patched {bs : List Byte} (h : bs.length = 64) : (patched bs).length = 64 := by
  simp [patched, h]

/-- A packet with its two bytes patched reads as the patched packet. -/
theorem read_patch (m : Memory) {bs : List Byte} (h : bs.length = 64) : ∀ k < 64,
    ((m.writeBytes 0 bs).writeBytes 62
      [highByte (checksum (bs.take 62)), lowByte (checksum (bs.take 62))]).read k = (patched bs)[k]? := by
  intro k hk
  rw [Memory.read_writeBytes]
  by_cases h62 : 62 ≤ k
  · rw [if_pos (by simp; omega), patched, List.getElem?_append_right (by simp [h]; omega)]
    simp [h]
  · rw [if_neg (by simp; omega), Memory.read_writeBytes, if_pos (by omega), patched,
      List.getElem?_append_left (by simp [h]; omega), List.getElem?_take_of_lt (by omega)]
    simp

/-- FRAME's answer on seven defined slots (43_checksum_framer.md R130). -/
theorem execFrame_packable {steps : List StepSlot} (h : Packable steps) (md : Metadata) (s : State) :
    execFrame steps md s = .next (succeed .buf (patched (packetBytes steps (zeroChecksum md))) { s with
      buf := (s.buf.writeBytes 0 (packetBytes steps (zeroChecksum md))).writeBytes 62
        [highByte (checksum ((packetBytes steps (zeroChecksum md)).take 62)),
         lowByte (checksum ((packetBytes steps (zeroChecksum md)).take 62))]
      mcopy := zeroChecksum md
      acc := checksum ((packetBytes steps (zeroChecksum md)).take 62)
      off := 64#7 }) := by
  simp only [execFrame, assemblePart_packable h]
  rw [sumBuffer_packable h.1 (zeroChecksum md) s.buf _ rfl]
  have hl : (packetBytes steps (zeroChecksum md)).length = 64 := by rw [length_packetBytes, h.1]
  refine congrArg Host.Outcome.next (returnOk_of_read (length_patched hl) fun k hk => ?_)
  exact read_patch s.buf hl k (by rwa [length_patched hl] at hk)

theorem execFrame_wrongCount {steps : List StepSlot} (h : steps.length ≠ 7) (md : Metadata) (s : State) :
    execFrame steps md s =
      .next (raise .buf (.invalidStepCount steps.length) { s with mcopy := zeroChecksum md }) := by
  simp only [execFrame, assemblePart_wrongCount h]

theorem execFrame_reserved {steps : List StepSlot} (h : HasReserved steps) (md : Metadata) (s : State) :
    ∃ i < 7, execFrame steps md s = .next (raise .buf (.malformedRecord 0)
      { s with mcopy := zeroChecksum md, off := BitVec.ofNat 7 (8 * i) }) := by
  obtain ⟨i, hi, he⟩ := assemblePart_reserved h (zeroChecksum md) { s with mcopy := zeroChecksum md }
  exact ⟨i, hi, by simp only [execFrame, he]; rfl⟩

/-- Every step list is one of the three: packable, of a wrong count, or with a reserved slot (42_packet_assembler.md R125). -/
theorem packet_cases (steps : List StepSlot) : Packable steps ∨ steps.length ≠ 7 ∨ HasReserved steps := by
  by_cases hl : steps.length = 7
  · by_cases hd : ∀ x ∈ steps, slotDefined x
    · exact .inl ⟨hl, hd⟩
    · refine .inr (.inr ⟨hl, ?_⟩)
      by_contra hn
      exact hd fun x hx => by_contra fun h => hn ⟨x, hx, h⟩
  · exact .inr (.inl hl)

end Sys2Proof.Machine
end

