-- ==== Sys2Proof/Laws/Step.lean ====
section
/-! SUPPORT. What exec and step can do, said once: an instruction succeeds or raises on its own result register, and a step is
an idle one, a decoded instruction, IllegalCommand, a host read or a reset. -/

namespace Sys2Proof.Machine

theorem not_defined_reservedC (pay : BitVec 64) : ¬ slotDefined ⟨.reservedC, pay⟩ := by rintro (h | h) <;> cases h
theorem not_defined_reservedD (pay : BitVec 64) : ¬ slotDefined ⟨.reservedD, pay⟩ := by rintro (h | h) <;> cases h

/-- RENC.C's answer (41_record_encoder.md R113). -/
theorem execRencC_eq (pay : BitVec 64) (s : State) : execRencC pay s = .next (raise .record (.malformedRecord 0) s) :=
  encodeRecord_reserved (not_defined_reservedC pay) s

/-- RENC.D's answer (41_record_encoder.md R114). -/
theorem execRencD_eq (pay : BitVec 64) (s : State) : execRencD pay s = .next (raise .record (.malformedRecord 0) s) :=
  encodeRecord_reserved (not_defined_reservedD pay) s

/-- RENC.TCS's answer (41_record_encoder.md R111). -/
theorem execRencTcs_eq (pay : BitVec 64) (s : State) :
    execRencTcs pay s = .next (succeed .record (le 8 pay) { s with record := s.record.writeBytes 0 (le 8 pay) }) :=
  encodeRecord_defined (.inl rfl) s

/-- RENC.RQW's answer (41_record_encoder.md R112). -/
theorem execRencRqw_eq (pay : BitVec 64) (s : State) :
    execRencRqw pay s = .next (succeed .record (le 8 pay) { s with record := s.record.writeBytes 0 (le 8 pay) }) :=
  encodeRecord_defined (.inr rfl) s

/-- Every instruction succeeds or raises, on its own result register (60_exceptions.md R157, R159, R163). -/
theorem exec_cases (i : Instr) (s : State) :
    (∃ bs u, exec i s = .next (succeed (resultRegOf i) bs u)) ∨ (∃ e u, exec i s = .next (raise (resultRegOf i) e u)) := by
  cases i with
  | venc1 v => exact .inl ⟨_, _, encodeValue_eq 1 v s⟩
  | venc2 v => exact .inl ⟨_, _, encodeValue_eq 2 v s⟩
  | venc4 v => exact .inl ⟨_, _, encodeValue_eq 4 v s⟩
  | venc8 v => exact .inl ⟨_, _, encodeValue_eq 8 v s⟩
  | rencTcs pay => exact .inl ⟨_, _, execRencTcs_eq pay s⟩
  | rencRqw pay => exact .inl ⟨_, _, execRencRqw_eq pay s⟩
  | rencC pay => exact .inr ⟨_, _, execRencC_eq pay s⟩
  | rencD pay => exact .inr ⟨_, _, execRencD_eq pay s⟩
  | asm steps md =>
    rcases packet_cases steps with h | h | h
    · exact .inl ⟨_, _, execAsm_packable h md s⟩
    · exact .inr ⟨_, _, execAsm_wrongCount h md s⟩
    · obtain ⟨_, _, he⟩ := execAsm_reserved h md s
      exact .inr ⟨_, _, he⟩
  | frame steps md =>
    rcases packet_cases steps with h | h | h
    · exact .inl ⟨_, _, execFrame_packable h md s⟩
    · exact .inr ⟨_, _, execFrame_wrongCount h md s⟩
    · obtain ⟨_, _, he⟩ := execFrame_reserved h md s
      exact .inr ⟨_, _, he⟩

/-- A host read that answers changes `readData` alone (20_memory.md R61). -/
theorem hostRead_next {r : HostReg} {s t : State} (h : hostRead r s = .next t) :
    ∃ b, readReg s r = .ok b ∧ t = { s with readData := some b } := by
  unfold hostRead at h
  split at h
  · rename_i b hb; cases h; exact ⟨b, hb, rfl⟩
  · cases h

/-- What a step that answers a next state did. -/
theorem step_cases {s t : State} (h : step s = .next t) :
    (s.inputs = [] ∧ t = s) ∨
    (∃ bs rest i extra, s.inputs = .request bs :: rest ∧ decode bs = .instr i extra ∧
      exec i { s with inputs := rest } = .next t) ∨
    (∃ bs rest c, s.inputs = .request bs :: rest ∧ decode bs = .reservedWord c ∧
      t = takeIllegalCommand { s with inputs := rest }) ∨
    (∃ r rest b, s.inputs = .read r :: rest ∧ readReg { s with inputs := rest } r = .ok b ∧
      t = { s with readData := some b, inputs := rest }) ∨
    (∃ rest, s.inputs = .reset :: rest ∧ t = hardReset { s with inputs := rest }) := by
  simp only [step, takeNext] at h
  split at h
  · rename_i hin; cases h; exact .inl ⟨hin, rfl⟩
  · rename_i x rest hin
    cases x with
    | request bs =>
      simp only [takeInput, serve] at h
      split at h
      · rename_i i extra hd; exact .inr (.inl ⟨bs, rest, i, extra, hin, hd, h⟩)
      · rename_i c hd; cases h; exact .inr (.inr (.inl ⟨bs, rest, c, hin, hd, rfl⟩))
      · cases h
      · cases h
    | read r =>
      obtain ⟨b, hb, rfl⟩ := hostRead_next h
      exact .inr (.inr (.inr (.inl ⟨r, rest, b, hin, hb, rfl⟩)))
    | reset => cases h; exact .inr (.inr (.inr (.inr ⟨rest, hin, rfl⟩)))

end Sys2Proof.Machine
end

