-- ==== Sys2Proof/Tests/Slice0.lean ====
section
/-! SUPPORT. The model's own tests: ill-formed terms refused, requests written out from 30_encoding.md, one step each on the
worked examples and vectors of 95_test_vectors.md (its ids are named), and a witness for the hypotheses of every statement
that has some. -/

namespace Sys2Proof.Tests

open Sys2Proof Sys2Proof.Machine

/-! ### Helpers -/

def nextOf : Host.Outcome State Fault Refusal → Option State
  | .next s => some s
  | .fault _ => none
  | .refused _ => none

/-- The response after serving an instruction from reset. -/
def answer (i : Instr) : Option Response := (nextOf (exec i State.reset)).bind (·.response)

/-- ERR and VALID after serving an instruction from a state. -/
def flagsAfter (i : Instr) (s : State) : Option (BitVec 8 × BitVec 8) := (nextOf (exec i s)).map fun t => (t.err, t.valid)

def zeroMeta : Metadata := ⟨0, 0, 0, 0, 0, 0, 0, 0⟩
/-- The prefix of the source's scenario, with host bytes in `meta[6]` and `meta[7]` (vectors A3, F2). -/
def scenarioMeta : Metadata := ⟨0, 0, 0, 0xFF, 0xFF, 0xFF, 0xAA, 0xBB⟩
/-- The steps of E1: a TimedColorStep in raw form, then six EMPTY. -/
def scenarioSteps : List StepSlot := ⟨.timedColorStep, 0x0000000864000010⟩ :: List.replicate 6 emptySlot
/-- The steps of F8: bit 2 of byte 1 flipped. -/
def flippedSteps : List StepSlot := ⟨.timedColorStep, 0x0000000864000410⟩ :: List.replicate 6 emptySlot
/-- The two step lists of F9 that differ by a swap of slots 0 and 1. -/
def swapSteps : List StepSlot :=
  ⟨.timedColorStep, 0x0807060504030201⟩ :: ⟨.rawQuadWord, 0x1122334455667788⟩ :: List.replicate 5 emptySlot
def swappedSteps : List StepSlot :=
  ⟨.rawQuadWord, 0x1122334455667788⟩ :: ⟨.timedColorStep, 0x0807060504030201⟩ :: List.replicate 5 emptySlot
def swapMeta : Metadata := ⟨0x09, 0x08, 0x07, 0x06, 0x05, 0x04, 0, 0⟩
/-- The steps of A10: slot 3 is reserved C. -/
def reservedSteps : List StepSlot := List.replicate 3 emptySlot ++ ⟨.reservedC, 0x1234⟩ :: List.replicate 3 emptySlot
/-- The steps of A2. -/
def mixedSteps : List StepSlot :=
  [⟨.timedColorStep, 0x00050A0000640110⟩, ⟨.rawQuadWord, 0x0807060504030201⟩, keepAliveSlot, emptySlot,
   ⟨.rawQuadWord, 0xFFFFFFFFFFFFFFFF⟩, emptySlot, ⟨.timedColorStep, 0x5A0000FFFFFF0000⟩]
def mixedMeta : Metadata := ⟨1, 2, 3, 4, 5, 6, 7, 8⟩

/-! ### Well-formedness -/

theorem test_illformed_asm_refused : (Instr.asm (List.replicate 16 emptySlot) zeroMeta).wellFormed = false := by decide
theorem test_illformed_frame_refused : (Instr.frame (List.replicate 16 emptySlot) zeroMeta).wellFormed = false := by decide
theorem test_wellformed_fifteen : (Instr.asm (List.replicate 15 emptySlot) zeroMeta).wellFormed = true := by decide

/-! ### Encoding (30_encoding.md R85; operands in R79's order) -/

theorem test_decode_venc1 : decode [0b00000000, 0xAB] = .instr (.venc1 0xAB) [] := by decide
theorem test_decode_venc2 : decode [0b00000001, 0x34, 0x12] = .instr (.venc2 0x1234) [] := by decide
theorem test_decode_venc4 : decode [0b00000010, 0xEF, 0xBE, 0xAD, 0xDE] = .instr (.venc4 0xDEADBEEF) [] := by decide
theorem test_decode_venc8 : decode [0b00000011, 8, 7, 6, 5, 4, 3, 2, 1] = .instr (.venc8 0x0102030405060708) [] := by decide
theorem test_decode_rencTcs : decode [0b01000000, 0x10, 0, 0, 0x64, 8, 0, 0, 0] = .instr (.rencTcs 0x0000000864000010) [] := by decide
theorem test_decode_rencRqw : decode [0b01000001, 1, 2, 3, 4, 5, 6, 7, 8] = .instr (.rencRqw 0x0807060504030201) [] := by decide
theorem test_decode_rencC :
    decode [0b01000010, 0x88, 0x77, 0x66, 0x55, 0x44, 0x33, 0x22, 0x11] = .instr (.rencC 0x1122334455667788) [] := by decide
theorem test_decode_rencD : decode [0b01000011, 0, 0, 0, 0, 0, 0, 0, 0] = .instr (.rencD 0) [] := by decide
theorem test_decode_asm :
    decode [0b10000001, 1, 9, 0, 0, 0, 0, 0, 0, 0, 1, 2, 3, 4, 5, 6, 7, 8] = .instr (.asm [⟨.rawQuadWord, 9⟩] mixedMeta) [] := by decide
theorem test_decode_frame :
    decode [0b11000001, 3, 9, 0, 0, 0, 0, 0, 0, 0, 1, 2, 3, 4, 5, 6, 7, 8] = .instr (.frame [⟨.reservedD, 9⟩] mixedMeta) [] := by decide
theorem test_decode_reserved : decode [0x10, 1, 2] = .reservedWord 0x10 ∧ decode [0x44] = .reservedWord 0x44 ∧
    decode [0xB7] = .reservedWord 0xB7 := by decide
theorem test_decode_short : decode [0x01, 0x34] = .operandMissing (.venc .w2) ∧ decode [] = .noCommand := by decide
/-- Bytes after a request's last operand are no part of it (30_encoding.md R80). -/
theorem test_decode_extra : decode [0x00, 0xAB, 0xCD] = .instr (.venc1 0xAB) [0xCD] := by decide

theorem test_table_venc : decodeTableWord 8 0x00 = some (.venc1 0) ∧ decodeTableWord 8 0x01 = some (.venc2 0) ∧
    decodeTableWord 8 0x02 = some (.venc4 0) ∧ decodeTableWord 8 0x03 = some (.venc8 0) := by decide +kernel
theorem test_table_renc : decodeTableWord 8 0x40 = some (.rencTcs 0) ∧ decodeTableWord 8 0x41 = some (.rencRqw 0) ∧
    decodeTableWord 8 0x42 = some (.rencC 0) ∧ decodeTableWord 8 0x43 = some (.rencD 0) := by decide +kernel
theorem test_table_asm : decodeTableWord 8 0x8F = some (.asm (List.replicate 15 ⟨.timedColorStep, 0⟩) zeroMeta) := by decide +kernel
theorem test_table_frame : decodeTableWord 8 0xC0 = some (.frame [] zeroMeta) := by decide +kernel
theorem test_table_reserved : decodeTableWord 8 0x90 = none := by decide +kernel
/-- From reset, the very next step serves the word placed. -/
theorem test_fetch_runs : ((nextOf (step (State.reset.withFetchWord 8 0x43))).map fun t => (t.err, t.inputs)) = some (0x01, []) := by
  decide +kernel

/-! ### The Value Encoder (vectors V-V2, V-V5, V-V13, V-V15, V-V18) -/

theorem test_venc1 : answer (.venc1 0xAB) = some (.ok [0xAB]) := by decide
theorem test_venc2 : answer (.venc2 0x1234) = some (.ok [0x34, 0x12]) := by decide
theorem test_venc4 : answer (.venc4 0xDEADBEEF) = some (.ok [0xEF, 0xBE, 0xAD, 0xDE]) := by decide
theorem test_venc4_topBit : answer (.venc4 0x80000000) = some (.ok [0, 0, 0, 0x80]) := by decide
theorem test_venc8 : answer (.venc8 0x0102030405060708) = some (.ok [8, 7, 6, 5, 4, 3, 2, 1]) := by decide
/-- A narrower value leaves no value above its width (R102). -/
theorem test_venc2_after_wider :
    ((nextOf (exec (.venc2 0x1234) { State.reset with vout := [(0, 1), (1, 2), (2, 3), (3, 4)] })).map fun t => (t.vout, t.vlen)) =
      some ([(0, 0x34), (1, 0x12)], some 2) := by decide

/-! ### The Record Encoder (vectors V-R1, V-R9, V-R6, V-R10, V-R11) -/

theorem test_rencTcs : answer (.rencTcs 0x0000000864000010) = some (.ok [0x10, 0, 0, 0x64, 8, 0, 0, 0]) := by decide
theorem test_rencTcs_padding : answer (.rencTcs 0x5A0000FFFFFF0000) = some (.ok [0, 0, 0xFF, 0xFF, 0xFF, 0, 0, 0x5A]) := by decide
theorem test_rencRqw : answer (.rencRqw 0x0807060504030201) = some (.ok [1, 2, 3, 4, 5, 6, 7, 8]) := by decide
/-- RECV is cleared and BUFV kept (P3 step 7). -/
theorem test_rencC : flagsAfter (.rencC 0x1122334455667788) { State.reset with valid := 0x07 } = some (0x01, 0x05) := by decide
theorem test_rencD : answer (.rencD 0) = some (.err (.malformedRecord 0)) := by decide

/-! ### The Packet Assembler (vectors A2, A8, A9, A11) -/

theorem test_asm_mixed : answer (.asm mixedSteps mixedMeta) = some (.ok
    ([0x10, 0x01, 0x64, 0, 0, 0x0A, 0x05, 0, 1, 2, 3, 4, 5, 6, 7, 8, 0x8F, 0, 0, 0, 0, 0, 0, 0, 0, 0, 0, 0, 0, 0, 0, 0] ++
     [0xFF, 0xFF, 0xFF, 0xFF, 0xFF, 0xFF, 0xFF, 0xFF, 0, 0, 0, 0, 0, 0, 0, 0, 0, 0, 0xFF, 0xFF, 0xFF, 0, 0, 0x5A] ++
     [1, 2, 3, 4, 5, 6, 7, 8])) := by decide +kernel
/-- The count is checked before the slots (A9): eight slots, one of them reserved. -/
theorem test_asm_count_first :
    flagsAfter (.asm (emptySlot :: reservedSteps) zeroMeta) { State.reset with valid := 0x05 } = some (0x82, 0x01) := by decide

/-! ### The Checksum Framer (vectors F1, F7, F13) -/

theorem test_frame_scenario : answer (.frame scenarioSteps scenarioMeta) = some (.ok
    ([0x10, 0, 0, 0x64, 0x08, 0, 0, 0] ++ List.replicate 48 0 ++ [0, 0, 0, 0xFF, 0xFF, 0xFF, 0x03, 0x79])) := by decide +kernel
/-- The largest checksum, and the hidden registers after it. -/
theorem test_frame_largest :
    ((nextOf (exec (.frame (List.replicate 7 ⟨.rawQuadWord, 0xFFFFFFFFFFFFFFFF⟩) ⟨0xFF, 0xFF, 0xFF, 0xFF, 0xFF, 0xFF, 1, 2⟩)
      State.reset)).map fun t => (t.buf.readBytes 61 3, t.acc, t.off, t.mcopy.m6)) =
      some (some [0xFF, 0x3D, 0xC2], 0x3DC2, 64, 0) := by decide +kernel

/-! ### The step and the host -/

/-- A reserved word changes ERR and the response only (P3 step 6). -/
theorem test_reserved_word :
    nextOf (step { State.reset with valid := 0x05, inputs := [.request [0x44, 1, 2]] }) =
      some { State.reset with valid := 0x05, err := 0x03, response := some (.err .illegalCommand) } := by decide
/-- A register that holds no value has no reading, and an offset it does not have neither. -/
theorem test_read_faults :
    readReg State.reset (.buf 0) = .error .noValue ∧ readReg State.reset (.buf 64) = .error .noSuchOffset := ⟨rfl, rfl⟩
/-- MemRead sees MemWrite's bytes, least significant at the lowest offset. -/
theorem test_memRead : memRead (memWrite State.reset 8 2 (0x1234 : BitVec 16)) 8 2 = some 0x1234 ∧
    (memWrite State.reset 8 2 (0x1234 : BitVec 16)).buf.read 8 = some 0x34 := by decide

/-! ### A witness for each statement's hypotheses -/

theorem scenario_packable : Packable scenarioSteps := by decide
theorem flipped_packable : Packable flippedSteps := by decide
theorem swap_packable : Packable swapSteps := by decide
theorem swapped_packable : Packable swappedSteps := by decide
theorem reserved_hasReserved : HasReserved reservedSteps := by decide

theorem test_witness_DecodeOfEncodeIsTheInstruction : (Instr.asm (List.replicate 15 emptySlot) zeroMeta).wellFormed = true := by decide
theorem test_witness_DecodedInstructionIsWellFormed : decode [0x01, 0x34, 0x12, 0x55] = .instr (.venc2 0x1234) [0x55] := by decide
/-- A slot's tag byte with its upper six bits set: they are ignored (30_encoding.md R80). -/
theorem test_witness_DecodedInstructionIsWellFormed_tagBits :
    decode ([0x81, 0xFD, 0, 0, 0, 0, 0, 0, 0, 0] ++ zeroMeta.bytes) = .instr (.asm [emptySlot] zeroMeta) [] ∧
      IsTagOffset (.asm [emptySlot] zeroMeta) 1 := by decide
theorem test_witness_StepRunsTheDecodedInstruction :
    ∃ s : State, s.inputs = [.request [0x00, 0xAB], .reset] ∧ decode [0x00, 0xAB] = .instr (.venc1 0xAB) [] :=
  ⟨{ State.reset with inputs := [.request [0x00, 0xAB], .reset] }, rfl, by decide⟩
theorem test_witness_ReservedWordOnlyRaisesIllegalCommand :
    ∃ s : State, s.inputs = [.request [0x04]] ∧
      ((0x04 : Byte).extractLsb' 4 2 ≠ 0#2 ∨ (((0x04 : Byte).extractLsb' 6 2 = 0#2 ∨ (0x04 : Byte).extractLsb' 6 2 = 1#2) ∧
        (0x04 : Byte).extractLsb' 2 2 ≠ 0#2)) :=
  ⟨{ State.reset with inputs := [.request [0x04]] }, rfl, by decide⟩
theorem test_witness_IncompleteRequestIsRefused :
    ∃ s : State, s.inputs = [.request [0x00]] ∧ decode [0x00] = .operandMissing (.venc .w1) :=
  ⟨{ State.reset with inputs := [.request [0x00]] }, rfl, by decide⟩
theorem test_witness_IncompleteRequestIsRefused_empty : ∃ s : State, s.inputs = [.request []] :=
  ⟨{ State.reset with inputs := [.request []] }, rfl⟩
theorem test_witness_IdleStepChangesNothing : State.reset.inputs = [] := rfl
theorem test_witness_ResetInputLeavesNoValue : ∃ s : State, s.inputs = [.reset] := ⟨{ State.reset with inputs := [.reset] }, rfl⟩

/-- The state right after reset, with one input to come. -/
def resetWith (x : Input) : State := { State.reset with inputs := [x] }
theorem none_valid (r : ResultReg) : validGet 0x00#8 r = false := by cases r <;> decide
theorem resetWith_inv (x : Input) : (resetWith x).Inv :=
  ⟨.inr ⟨none_valid .vout, rfl, rfl⟩, .inr ⟨none_valid .record, rfl⟩, .inr ⟨none_valid .buf, rfl⟩, (fun _ h => by cases h), rfl,
    (by decide : validZero 0x00#8 = 0#5), (by decide : (0#7).toNat ≤ 64 ∧ (0#7).toNat % 8 = 0)⟩
/-- One witness per clause, at the last offset of each register. -/
theorem test_witness_InvalidResultRegisterHasNoReading_vout :
    (resetWith (.read (.vout 7))).Inv ∧ (resetWith (.read (.vout 7))).isValid .vout = false := ⟨resetWith_inv _, none_valid _⟩
theorem test_witness_InvalidResultRegisterHasNoReading_vlen :
    (resetWith (.read .vlen)).Inv ∧ (resetWith (.read .vlen)).isValid .vout = false := ⟨resetWith_inv _, none_valid _⟩
theorem test_witness_InvalidResultRegisterHasNoReading_record :
    (resetWith (.read (.record 7))).Inv ∧ (resetWith (.read (.record 7))).isValid .record = false := ⟨resetWith_inv _, none_valid _⟩
theorem test_witness_InvalidResultRegisterHasNoReading_buf :
    (resetWith (.read (.buf 63))).Inv ∧ (resetWith (.read (.buf 63))).isValid .buf = false := ⟨resetWith_inv _, none_valid _⟩

/-- A state in which every result register is valid, the last response being VENC2's, with one input to come. -/
def allValid (x : Input) : State :=
  { State.reset with
    vout := [(0, 0x34), (1, 0x12)], vlen := some 2, record := (List.range 8).map fun k => (k, 0)
    buf := (List.range 64).map fun k => (k, 0), valid := 0x07, response := some (.ok [0x34, 0x12]), inputs := [x] }
theorem all_valid (r : ResultReg) : validGet 0x07#8 r = true := by cases r <;> decide
theorem allValid_inv (x : Input) : (allValid x).Inv :=
  ⟨.inl ⟨all_valid .vout, 2, by decide, rfl, rfl⟩, .inl ⟨all_valid .record, rfl⟩, .inl ⟨all_valid .buf, rfl⟩, (fun r h => by cases h; decide), rfl,
    (by decide : validZero 0x07#8 = 0#5),
    (by decide : (0#7).toNat ≤ 64 ∧ (0#7).toNat % 8 = 0)⟩
/-- At both ends of the range: VLEN itself, and the last byte. -/
theorem test_witness_InvalidResultRegisterHasNoReading_beyondVlen : ∀ k ∈ [2, 7],
    (allValid (.read (.vout k))).Inv ∧ (allValid (.read (.vout k))).isValid .vout = true ∧
      (allValid (.read (.vout k))).vlen = some 2#4 ∧ (2#4).toNat ≤ k ∧ k < 8 :=
  fun k hk => ⟨allValid_inv _, all_valid _, rfl, by revert k; decide⟩
theorem test_witness_HostReadGivesTheHeldByte_vout :
    (allValid (.read (.vout 1))).Inv ∧ (allValid (.read (.vout 1))).isValid .vout = true ∧
      (allValid (.read (.vout 1))).vlen = some 2#4 ∧ 1 < (2#4).toNat := ⟨allValid_inv _, all_valid _, rfl, by decide⟩
theorem test_witness_HostReadGivesTheHeldByte_record :
    (allValid (.read (.record 7))).Inv ∧ (allValid (.read (.record 7))).isValid .record = true := ⟨allValid_inv _, all_valid _⟩
theorem test_witness_HostReadGivesTheHeldByte_buf :
    (allValid (.read (.buf 63))).Inv ∧ (allValid (.read (.buf 63))).isValid .buf = true := ⟨allValid_inv _, all_valid _⟩
theorem test_witness_HostReadGivesTheHeldByte_vlen :
    (allValid (.read .vlen)).Inv ∧ (allValid (.read .vlen)).isValid .vout = true ∧ (allValid (.read .vlen)).vlen = some 2#4 ∧
      (allValid (.read .vlen)).inputs = [.read .vlen] := ⟨allValid_inv _, all_valid _, rfl, rfl⟩
theorem test_witness_HostReadGivesTheHeldByte_err :
    (allValid (.read .err)).Inv ∧ (allValid (.read .err)).inputs = [.read .err] := ⟨allValid_inv _, rfl⟩
theorem test_witness_HostReadGivesTheHeldByte_valid :
    (allValid (.read .valid)).Inv ∧ (allValid (.read .valid)).inputs = [.read .valid] := ⟨allValid_inv _, rfl⟩

theorem test_witness_LawsOfTheLittleEndianImage : ∃ v v' : BitVec (8 * 2), le 2 v = le 2 v' := ⟨0x1234, 0x1234, rfl⟩
theorem test_witness_LawsOfRenc : renc .rawQuadWord 1 = .ok [1, 0, 0, 0, 0, 0, 0, 0] ∧
    renc .rawQuadWord 1 = renc .rawQuadWord 1 := ⟨rfl, rfl⟩
theorem test_witness_AsmPlacesRecordsAndMetadata : Packable mixedSteps ∧ mixedSteps[6]? = some ⟨.timedColorStep, 0x5A0000FFFFFF0000⟩ := by
  decide
theorem test_witness_LawsOfAsm : Packable swapSteps ∧ Packable swappedSteps := ⟨swap_packable, swapped_packable⟩
theorem test_witness_InvalidStepCount_low : ([] : List StepSlot).length ≤ 15 ∧ ([] : List StepSlot).length ≠ 7 := by decide
theorem test_witness_InvalidStepCount_high :
    (List.replicate 15 emptySlot).length ≤ 15 ∧ (List.replicate 15 emptySlot).length ≠ 7 := by decide
theorem test_witness_InvalidStepCount_raised :
    ∃ t, exec (.asm [] zeroMeta) State.reset = .next t ∧ t.response = some (.err (.invalidStepCount 0)) := ⟨_, rfl, rfl⟩
theorem test_witness_MalformedRecord_slots : HasReserved reservedSteps := reserved_hasReserved
theorem test_witness_MalformedRecord_raised :
    ∃ t, exec (.rencC 0) State.reset = .next t ∧ t.response = some (.err (.malformedRecord 0)) := ⟨_, rfl, rfl⟩
theorem test_witness_ErrorEntryClearsOnlyTheOwnRegister : ResultReg.buf ≠ .vout := by decide
theorem test_witness_FrameResultIsThePacketWithItsChecksum : Packable mixedSteps ∧ mixedSteps[0]? = some ⟨.timedColorStep, 0x00050A0000640110⟩ := by
  decide
theorem test_witness_FrameOutcomeFromTheRequest : ¬ Packable reservedSteps := by decide
theorem test_witness_ChecksumNeverWraps : Packable (List.replicate 7 ⟨.rawQuadWord, 0xFFFFFFFFFFFFFFFF⟩) ∧
    checksum (List.replicate 62 0xFF) = 0x3DC2 := by decide +kernel
theorem test_witness_FrameIsIdempotent : Packable scenarioSteps := scenario_packable
theorem frame_answers {steps : List StepSlot} (h : Packable steps) (md : Metadata) (s : State) : ∃ t,
    exec (.frame steps md) s = .next t ∧ t.response = some (.ok (patched (packetBytes steps (zeroChecksum md)))) :=
  ⟨_, execFrame_packable h md s, rfl⟩
theorem test_witness_SingleByteChangeChangesTheChecksum : ∃ t t' B B',
    exec (.frame scenarioSteps scenarioMeta) State.reset = .next t ∧ t.response = some (.ok B) ∧
    exec (.frame flippedSteps scenarioMeta) State.reset = .next t' ∧ t'.response = some (.ok B') ∧
    B[1]? ≠ B'[1]? ∧ ∀ j < 62, j ≠ 1 → B[j]? = B'[j]? := by
  obtain ⟨t, h, hr⟩ := frame_answers scenario_packable scenarioMeta State.reset
  obtain ⟨t', h', hr'⟩ := frame_answers flipped_packable scenarioMeta State.reset
  exact ⟨t, t', _, _, h, hr, h', hr', by decide +kernel, by decide +kernel⟩
theorem test_witness_ReorderedBytesKeepTheChecksum : ∃ t t' B B',
    exec (.frame swapSteps swapMeta) State.reset = .next t ∧ t.response = some (.ok B) ∧
    exec (.frame swappedSteps swapMeta) State.reset = .next t' ∧ t'.response = some (.ok B') ∧ (B.take 62).Perm (B'.take 62) := by
  obtain ⟨t, h, hr⟩ := frame_answers swap_packable swapMeta State.reset
  obtain ⟨t', h', hr'⟩ := frame_answers swapped_packable swapMeta State.reset
  exact ⟨t, t', _, _, h, hr, h', hr', by decide +kernel⟩
theorem test_witness_FrameIsThePatchedAssembly : Packable scenarioSteps := scenario_packable
theorem test_witness_EveryOperationEndsInAResponse : (Instr.frame reservedSteps zeroMeta).wellFormed = true := by decide
theorem test_witness_OperationsWriteOnlyTheirOwnRegisters : ∃ t, exec (.venc1 0) State.reset = .next t := ⟨_, rfl⟩
theorem test_witness_MemReadAfterMemWrite : (1 : Nat) < 8 ∧ ¬ ((56 : Nat) ≤ 55 ∧ 55 < 56 + 8) := by decide
theorem test_witness_StepKeepsTheInvariant : ∃ t, (resetWith .reset).Inv ∧ step (resetWith .reset) = .next t :=
  ⟨_, resetWith_inv _, rfl⟩
theorem test_witness_StepKeepsTheCanonicalForm : ∃ t, (allValid .reset).Canonical ∧ step (allValid .reset) = .next t :=
  ⟨_, ⟨by decide, by decide, by decide⟩, rfl⟩

end Sys2Proof.Tests
end

section
/-! SUPPORT. `littleEndian` undoes `le`, what MemWrite leaves at each offset, and what a step does with a request; then the
obligations of 00_scope.md. -/

namespace Sys2Proof.Machine

/-! ### The little-endian image as a number (20_memory.md R54) -/

theorem byteOf_zero_toNat {n : Nat} (v : BitVec n) : (byteOf v 0).toNat = v.toNat % 256 := by
  simp [byteOf]

theorem byteOf_ushiftRight_eight {n : Nat} (v : BitVec n) (k : Nat) : byteOf (v >>> 8) k = byteOf v (k + 1) := by
  apply BitVec.eq_of_toNat_eq
  simp only [byteOf, BitVec.extractLsb'_toNat, BitVec.toNat_ushiftRight, ← Nat.shiftRight_add]
  congr 2; omega

/-- The image of one more byte is the lowest byte, then the image of the value without it. -/
theorem le_succ (w : Nat) {n : Nat} (v : BitVec n) : le (w + 1) v = byteOf v 0 :: le w (v >>> 8) := by
  simp only [le, List.range_succ_eq_map, List.map_cons, List.map_map]
  congr 1
  exact List.map_congr_left fun k _ => (byteOf_ushiftRight_eight v k).symm

/-- The image of `w` bytes, read as a number, is the value's lowest `w` bytes. -/
theorem littleEndian_le (w : Nat) {n : Nat} (v : BitVec n) : littleEndian (le w v) = v.toNat % 256 ^ w := by
  induction w generalizing v with
  | zero => simp [le, littleEndian, Nat.mod_one]
  | succ w ih =>
    have hshift : (v >>> 8).toNat = v.toNat / 256 := by simp [Nat.shiftRight_eq_div_pow]
    rw [le_succ, littleEndian, ih, byteOf_zero_toNat, hshift, Nat.pow_succ', Nat.mod_mul]

/-- At the value's own width the image, read as a number, is the value. -/
theorem littleEndian_le_self (w : Nat) (v : BitVec (8 * w)) : littleEndian (le w v) = v.toNat := by
  have hv : v.toNat < 256 ^ w := by rw [show 256 = 2 ^ 8 from rfl, ← Nat.pow_mul]; exact v.isLt
  rw [littleEndian_le, Nat.mod_eq_of_lt hv]

/-! ### MemRead and MemWrite (00_scope.md R11) -/

/-- MemWrite puts the value's little-endian image at its offset. -/
theorem memWrite_buf_eq_writeBytes_le {bits : Nat} (s : State) (a n : Nat) (v : BitVec bits) :
    (memWrite s a n v).buf = s.buf.writeBytes a (le n v) := rfl

/-- Each offset after MemWrite: a byte of the value inside the range written, as before outside it. -/
theorem read_memWrite {bits : Nat} (s : State) (a n : Nat) (v : BitVec bits) (x : Nat) :
    (memWrite s a n v).buf.read x = if a ≤ x ∧ x < a + n then some (byteOf v (x - a)) else s.buf.read x := by
  rw [memWrite_buf_eq_writeBytes_le, Memory.read_writeBytes, length_le]
  split
  · rw [getElem?_le, if_pos (by omega)]
  · rfl

theorem memRead_of_readBytes {s : State} {a n : Nat} {bs : List Byte} (h : s.buf.readBytes a n = some bs) :
    memRead s a n = some (littleEndian bs) := by
  simp [memRead, h]

/-- MemRead after MemWrite reads the image just written. -/
theorem memRead_memWrite {bits : Nat} (s : State) (a n : Nat) (v : BitVec bits) :
    memRead (memWrite s a n v) a n = some (littleEndian (le n v)) := by
  have h : (s.buf.writeBytes a (le n v)).readBytes a n = some (le n v) := by
    simpa using Memory.readBytes_writeBytes s.buf a (le n v)
  exact memRead_of_readBytes h

/-! ### A step on a request (00_scope.md R14) -/

/-- A step whose next input is a request serves its bytes on the state that input is taken from. -/
theorem step_request {s : State} {bs : List Byte} {rest : List Input} (h : s.inputs = .request bs :: rest) :
    step s = serve bs { s with inputs := rest } := by
  simp only [step, takeNext, h, takeInput]

theorem serve_instr {bs extra : List Byte} {i : Instr} (h : decode bs = .instr i extra) (s : State) :
    serve bs s = exec i s := by
  simp only [serve, h]

/-! ### The obligations -/

/-- Settles O42: the bytes written are the value's little-endian image, which reads back as the value, and the range written
ends at `a + n`. -/
theorem memReadAfterMemWrite : Obligations.MemReadAfterMemWrite := by
  unfold Obligations.MemReadAfterMemWrite
  intro s a n v
  refine ⟨?_, fun k hk => ?_, fun x hx => ?_⟩
  · rw [memRead_memWrite, littleEndian_le_self]
  · rw [read_memWrite, if_pos (by omega), Nat.add_sub_cancel_left, byteOf]
  · rw [read_memWrite, if_neg hx]

/-- Settles O5: a step serves the request, and serving a decodable one is exec. -/
theorem stepRunsTheDecodedInstruction : Obligations.StepRunsTheDecodedInstruction := by
  unfold Obligations.StepRunsTheDecodedInstruction
  intro s bs extra rest i hin hdec
  rw [step_request hin, serve_instr hdec]

end Sys2Proof.Machine
end

section
/-! SUPPORT. What an operation does to the state, said once (`Effect`), with its frame, its outcome and the invariant drawn
from it; what a host read and a reset answer; then the obligations of 10_state.md. -/

namespace Sys2Proof.Machine

section

variable {s t u : State} {r : ResultReg} {bs : List Byte} {e : CoreError} {x : Response} {i : Instr}

/-! ### Success (60_exceptions.md R159), field by field -/

@[simp] theorem succeed_response (r : ResultReg) (bs : List Byte) (s : State) :
    (succeed r bs s).response = some (.ok bs) := rfl
@[simp] theorem succeed_err (r : ResultReg) (bs : List Byte) (s : State) : (succeed r bs s).err = 0x00#8 := rfl
@[simp] theorem succeed_valid (r : ResultReg) (bs : List Byte) (s : State) :
    (succeed r bs s).valid = validSet s.valid r := rfl
@[simp] theorem succeed_isValid (r : ResultReg) (bs : List Byte) (s : State) (r' : ResultReg) :
    (succeed r bs s).isValid r' = (decide (r = r') || s.isValid r') := validGet_validSet _ _ _

/-! ### Frames: success and an error add nothing outside the own unit (10_state.md R33) -/

theorem OnlyVout.succeed (h : OnlyVout s u) : OnlyVout s (succeed .vout bs u) :=
  { h with
    recv := by simp [h.recv]
    bufv := by simp [h.bufv]
    validZero := by simp [h.validZero] }

theorem OnlyRecord.succeed (h : OnlyRecord s u) : OnlyRecord s (succeed .record bs u) :=
  { h with
    voutv := by simp [h.voutv]
    bufv := by simp [h.bufv]
    validZero := by simp [h.validZero] }

theorem OnlyRecord.raise (h : OnlyRecord s u) : OnlyRecord s (raise .record e u) :=
  { h with
    voutv := by simp [h.voutv]
    bufv := by simp [h.bufv]
    validZero := by simp [h.validZero] }

theorem OnlyBuf.succeed (h : OnlyBuf s u) : OnlyBuf s (succeed .buf bs u) :=
  { h with
    voutv := by simp [h.voutv]
    recv := by simp [h.recv]
    validZero := by simp [h.validZero] }

theorem OnlyBuf.raise (h : OnlyBuf s u) : OnlyBuf s (raise .buf e u) :=
  { h with
    voutv := by simp [h.voutv]
    recv := by simp [h.recv]
    validZero := by simp [h.validZero] }

/-! ### The effect of an operation -/

/-- What an operation on `s` with the result register `r` and the response `x` can leave behind: VENC's image; RENC's record
or its error; ASM's or FRAME's packet, with FRAME's patch in `tail`, or its error. -/
inductive Effect (s : State) : ResultReg → Response → State → Prop where
  | value {n : Nat} (w : Nat) (v : BitVec n) (hw : w ∈ [1, 2, 4, 8]) :
    Effect s .vout (.ok (le w v)) (succeed .vout (le w v)
      { s with vout := (s.vout.writeBytes 0 (le w v)).dropFrom w, vlen := some (BitVec.ofNat 4 w) })
  | record (bs : List Byte) (hl : bs.length = 8) :
    Effect s .record (.ok bs) (succeed .record bs { s with record := s.record.writeBytes 0 bs })
  | recordError (e : CoreError) : Effect s .record (.err e) (raise .record e s)
  | packet (p tail bs : List Byte) (mcopy : Metadata) (acc : BitVec 16) (hp : p.length = 64) (ht : tail.length ≤ 2)
    (hread : ∀ k < 64, ((s.buf.writeBytes 0 p).writeBytes 62 tail).read k = bs[k]?) :
    Effect s .buf (.ok bs) (succeed .buf bs
      { s with buf := (s.buf.writeBytes 0 p).writeBytes 62 tail, mcopy := mcopy, acc := acc, off := 64#7 })
  | packetError (e : CoreError) (mcopy : Metadata) (off : BitVec 7)
    (hoff : off = s.off ∨ ∃ i < 7, off = BitVec.ofNat 7 (8 * i)) :
    Effect s .buf (.err e) (raise .buf e { s with mcopy := mcopy, off := off })

/-- Every operation answers, from every state, with one response that its request alone decides (10_state.md R33), and that
response is one the CORE can give when the request can carry the operation. -/
theorem exec_effect (i : Instr) : ∃ x : Response, (i.wellFormed = true → x.possible) ∧
    ∀ s, ∃ t, exec i s = .next t ∧ Effect s (resultRegOf i) x t := by
  cases i with
  | venc1 v => exact ⟨_, by simp, fun s => ⟨_, encodeValue_eq 1 v s, .value 1 v (by simp)⟩⟩
  | venc2 v => exact ⟨_, by simp, fun s => ⟨_, encodeValue_eq 2 v s, .value 2 v (by simp)⟩⟩
  | venc4 v => exact ⟨_, by simp, fun s => ⟨_, encodeValue_eq 4 v s, .value 4 v (by simp)⟩⟩
  | venc8 v => exact ⟨_, by simp, fun s => ⟨_, encodeValue_eq 8 v s, .value 8 v (by simp)⟩⟩
  | rencTcs pay => exact ⟨_, by simp, fun s => ⟨_, execRencTcs_eq pay s, .record _ (length_le 8 pay)⟩⟩
  | rencRqw pay => exact ⟨_, by simp, fun s => ⟨_, execRencRqw_eq pay s, .record _ (length_le 8 pay)⟩⟩
  | rencC pay => exact ⟨_, by simp, fun s => ⟨_, execRencC_eq pay s, .recordError _⟩⟩
  | rencD pay => exact ⟨_, by simp, fun s => ⟨_, execRencD_eq pay s, .recordError _⟩⟩
  | asm steps md =>
    rcases packet_cases steps with h | h | h
    · have hl : (packetBytes steps md).length = 64 := by rw [length_packetBytes, h.1]
      refine ⟨_, by simp [hl], fun s => ⟨_, execAsm_packable h md s, .packet _ [] _ s.mcopy s.acc hl (by simp) ?_⟩⟩
      intro k hk
      rw [Memory.writeBytes, Memory.read_writeBytes, if_pos (by omega), Nat.sub_zero]
    · refine ⟨_, fun hw => ?_, fun s => ⟨_, execAsm_wrongCount h md s, .packetError _ s.mcopy s.off (.inl rfl)⟩⟩
      exact ⟨h, of_decide_eq_true hw⟩
    · refine ⟨.err (.malformedRecord 0), by simp, fun s => ?_⟩
      obtain ⟨i, hi, he⟩ := execAsm_reserved h md s
      exact ⟨_, he, .packetError _ s.mcopy _ (.inr ⟨i, hi, rfl⟩)⟩
  | frame steps md =>
    rcases packet_cases steps with h | h | h
    · have hl : (packetBytes steps (zeroChecksum md)).length = 64 := by rw [length_packetBytes, h.1]
      exact ⟨_, by simp [length_patched hl], fun s => ⟨_, execFrame_packable h md s,
        .packet _ _ _ _ _ hl (by simp) (read_patch s.buf hl)⟩⟩
    · refine ⟨_, fun hw => ?_, fun s => ⟨_, execFrame_wrongCount h md s, .packetError _ _ s.off (.inl rfl)⟩⟩
      exact ⟨h, of_decide_eq_true hw⟩
    · refine ⟨.err (.malformedRecord 0), by simp, fun s => ?_⟩
      obtain ⟨i, hi, he⟩ := execFrame_reserved h md s
      exact ⟨_, he, .packetError _ _ _ (.inr ⟨i, hi, rfl⟩)⟩

/-- The effect of an operation that answered `t`. -/
theorem effect_of_exec (h : exec i s = .next t) :
    ∃ x : Response, (i.wellFormed = true → x.possible) ∧ Effect s (resultRegOf i) x t := by
  obtain ⟨x, hx, hall⟩ := exec_effect i
  obtain ⟨t', ht, he⟩ := hall s
  cases ht.symm.trans h
  exact ⟨x, hx, he⟩

/-! ### The frame of every operation (10_state.md R33, R44) -/

theorem Effect.onlyVout (h : Effect s .vout x t) : OnlyVout s t := by
  cases h with
  | value w v hw => exact OnlyVout.succeed ⟨rfl, rfl, rfl, rfl, rfl, rfl, rfl, rfl, rfl, rfl⟩

theorem Effect.onlyRecord (h : Effect s .record x t) : OnlyRecord s t := by
  cases h with
  | record bs hl => exact OnlyRecord.succeed ⟨rfl, rfl, rfl, rfl, rfl, rfl, rfl, rfl, rfl, rfl, rfl⟩
  | recordError e => exact OnlyRecord.raise ⟨rfl, rfl, rfl, rfl, rfl, rfl, rfl, rfl, rfl, rfl, rfl⟩

theorem Effect.onlyBuf (h : Effect s .buf x t) : OnlyBuf s t := by
  cases h with
  | packet p tail bs mcopy acc hp ht hread => exact OnlyBuf.succeed ⟨rfl, rfl, rfl, rfl, rfl, rfl, rfl, rfl⟩
  | packetError e mcopy off hoff => exact OnlyBuf.raise ⟨rfl, rfl, rfl, rfl, rfl, rfl, rfl, rfl⟩

/-- ASM uses neither MCOPY nor ACC (10_state.md R44). -/
theorem execAsm_keeps_mcopy_acc {steps : List StepSlot} {md : Metadata} (h : execAsm steps md s = .next t) :
    t.mcopy = s.mcopy ∧ t.acc = s.acc := by
  rcases packet_cases steps with hs | hs | hs
  · cases (execAsm_packable hs md s).symm.trans h
    exact ⟨rfl, rfl⟩
  · cases (execAsm_wrongCount hs md s).symm.trans h
    exact ⟨rfl, rfl⟩
  · obtain ⟨i, _, he⟩ := execAsm_reserved hs md s
    cases he.symm.trans h
    exact ⟨rfl, rfl⟩

/-! ### The outcome of every operation -/

/-- Does the response carry a result? -/
def Response.isOk : Response → Bool
  | .ok _ => true
  | .err _ => false

/-- The result a response carries; an error carries none. -/
def Response.result : Response → List Byte
  | .ok bs => bs
  | .err _ => []

/-- The operation ended with the response `x`: ERR mirrors it, and its result register is valid exactly when it is Ok and
holds exactly the result it carries (10_state.md R34 to R36). -/
structure EndedWith (r : ResultReg) (x : Response) (t : State) : Prop where
  response : t.response = some x
  err : t.err = errOfResponse (some x)
  flag : t.isValid r = x.isOk
  held : ∀ k < r.size, (t.space r).read k = x.result[k]?

/-- VOUT after a VENC reads as the image, and as no value above it (40_value_encoder.md R101 to R104). -/
theorem read_value (m : Memory) (w : Nat) {n : Nat} (v : BitVec n) (k : Nat) :
    ((m.writeBytes 0 (le w v)).dropFrom w).read k = (le w v)[k]? := by
  rw [Memory.read_dropFrom, Memory.read_writeBytes, length_le]
  by_cases hk : k < w
  · simp [hk]
  · simp [hk]

theorem endedWith_succeed (hheld : ∀ k < r.size, (u.space r).read k = bs[k]?) :
    EndedWith r (.ok bs) (succeed r bs u) where
  response := rfl
  err := rfl
  flag := (succeed_succeeded r bs u).flag
  held := by cases r <;> exact hheld

theorem endedWith_raise : EndedWith r (.err e) (raise r e u) where
  response := rfl
  err := rfl
  flag := (raise_failed r e u).flag
  held k _ := (raise_failed r e u).noValue k

theorem Effect.endedWith (h : Effect s r x t) : EndedWith r x t := by
  cases h with
  | value w v hw => exact endedWith_succeed fun k _ => read_value s.vout w v k
  | record bs hl =>
    refine endedWith_succeed fun k (hk : k < 8) => ?_
    rw [space_record, Memory.read_writeBytes, if_pos (by omega), Nat.sub_zero]
  | recordError e => exact endedWith_raise
  | packet p tail bs mcopy acc hp ht hread => exact endedWith_succeed hread
  | packetError e mcopy off hoff => exact endedWith_raise

/-! ### What a space holds while the invariant's clauses hold -/

theorem Memory.exists_read_of_covers {m : Memory} {n k : Nat} (h : m.covers n) (hk : k < n) : ∃ b, m.read k = some b :=
  Option.isSome_iff_exists.mp (by rw [Memory.read_isSome_of_covers h]; exact decide_eq_true hk)

theorem Memory.read_eq_none_of_covers {m : Memory} {n k : Nat} (h : m.covers n) (hk : n ≤ k) : m.read k = none :=
  Option.not_isSome_iff_eq_none.mp (by rw [Memory.read_isSome_of_covers h]; simp; omega)

/-- Writing at least as many bytes as a space covers, from offset 0 on, makes it cover exactly those. -/
theorem Memory.covers_writeBytes_zero {m : Memory} {n l : Nat} (h : m.covers n) (hl : bs.length = l) (hn : n ≤ l) :
    (m.writeBytes 0 bs).covers l := by
  have hc := Memory.covers_writeBytes bs h (Nat.zero_le n)
  rwa [Nat.zero_add, hl, Nat.max_eq_right hn] at hc

theorem State.VoutHeld.exists_covers (h : s.VoutHeld) : ∃ n, s.vout.covers n := by
  obtain ⟨_, w, _, _, hc⟩ | ⟨_, _, hv⟩ := h
  · exact ⟨w, hc⟩
  · exact ⟨0, by rw [hv]; rfl⟩

theorem State.RecordHeld.exists_covers (h : s.RecordHeld) : ∃ n ≤ 8, s.record.covers n := by
  obtain ⟨_, hc⟩ | ⟨_, hv⟩ := h
  · exact ⟨8, le_rfl, hc⟩
  · exact ⟨0, by omega, by rw [hv]; rfl⟩

theorem State.BufHeld.exists_covers (h : s.BufHeld) : ∃ n ≤ 64, s.buf.covers n := by
  obtain ⟨_, hc⟩ | ⟨_, hv⟩ := h
  · exact ⟨64, le_rfl, hc⟩
  · exact ⟨0, by omega, by rw [hv]; rfl⟩

/-- While VOUTV is 1, VOUT holds exactly VLEN bytes (10_state.md R30). -/
theorem State.VoutHeld.covers_vlen {n : BitVec 4} (h : s.VoutHeld) (hv : s.isValid .vout = true)
    (hn : s.vlen = some n) : n.toNat ≤ 8 ∧ s.vout.covers n.toNat := by
  obtain ⟨_, w, hw, hvlen, hc⟩ | ⟨hv', _, _⟩ := h
  · have hle : w ≤ 8 := by simp at hw; omega
    have hnw : n = BitVec.ofNat 4 w := Option.some.inj (hn.symm.trans hvlen)
    have htoNat : n.toNat = w := by rw [hnw, BitVec.toNat_ofNat]; omega
    rw [htoNat]
    exact ⟨hle, hc⟩
  · cases hv.symm.trans hv'

theorem State.RecordHeld.covers (h : s.RecordHeld) (hv : s.isValid .record = true) : s.record.covers 8 := by
  obtain ⟨_, hc⟩ | ⟨hv', _⟩ := h
  · exact hc
  · cases hv.symm.trans hv'

theorem State.BufHeld.covers (h : s.BufHeld) (hv : s.isValid .buf = true) : s.buf.covers 64 := by
  obtain ⟨_, hc⟩ | ⟨hv', _⟩ := h
  · exact hc
  · cases hv.symm.trans hv'

/-- A result register whose flag is 0 holds nothing (10_state.md R36). -/
theorem State.Inv.space_eq_nil (h : s.Inv) (hv : s.isValid r = false) : s.space r = [] := by
  cases r with
  | vout =>
    obtain ⟨hv', _⟩ | ⟨_, _, hm⟩ := h.voutHeld
    · cases hv.symm.trans hv'
    · exact hm
  | record =>
    obtain ⟨hv', _⟩ | ⟨_, hm⟩ := h.recordHeld
    · cases hv.symm.trans hv'
    · exact hm
  | buf =>
    obtain ⟨hv', _⟩ | ⟨_, hm⟩ := h.bufHeld
    · cases hv.symm.trans hv'
    · exact hm

/-! ### The invariant after an operation -/

theorem State.VoutHeld.of_eq (h : s.VoutHeld) (hm : t.vout = s.vout) (hn : t.vlen = s.vlen)
    (hv : t.isValid .vout = s.isValid .vout) : t.VoutHeld := by
  rwa [State.VoutHeld, hm, hn, hv]

theorem State.RecordHeld.of_eq (h : s.RecordHeld) (hm : t.record = s.record)
    (hv : t.isValid .record = s.isValid .record) : t.RecordHeld := by
  rwa [State.RecordHeld, hm, hv]

theorem State.BufHeld.of_eq (h : s.BufHeld) (hm : t.buf = s.buf)
    (hv : t.isValid .buf = s.isValid .buf) : t.BufHeld := by
  rwa [State.BufHeld, hm, hv]

theorem Effect.voutHeld (h : Effect s .vout x t) (hs : s.VoutHeld) : t.VoutHeld := by
  cases h with
  | value w v hw =>
    obtain ⟨n, hn⟩ := hs.exists_covers
    have hc := Memory.covers_writeBytes (le w v) hn (Nat.zero_le n)
    exact .inl ⟨by simp, w, hw, rfl, Memory.covers_dropFrom hc (by simp)⟩

theorem Effect.recordHeld (h : Effect s .record x t) (hs : s.RecordHeld) : t.RecordHeld := by
  cases h with
  | record bs hl =>
    obtain ⟨n, hn8, hn⟩ := hs.exists_covers
    exact .inl ⟨by simp, Memory.covers_writeBytes_zero hn hl hn8⟩
  | recordError e => exact .inr ⟨by simp, rfl⟩

theorem Effect.bufHeld (h : Effect s .buf x t) (hs : s.BufHeld) : t.BufHeld := by
  cases h with
  | packet p tail bs mcopy acc hp ht hread =>
    obtain ⟨n, hn64, hn⟩ := hs.exists_covers
    have hc := Memory.covers_writeBytes tail (Memory.covers_writeBytes_zero hn hp hn64) (by omega : 62 ≤ 64)
    rw [Nat.max_eq_left (by omega)] at hc
    exact .inl ⟨by simp, hc⟩
  | packetError e mcopy off hoff => exact .inr ⟨by simp, rfl⟩

/-- OFF ends at 64 after a packet, and at a slot's offset or where it was after an error (10_state.md R42, log entry 9). -/
theorem Effect.offAligned (h : Effect s .buf x t) (hs : s.OffAligned) : t.OffAligned := by
  cases h with
  | packet p tail bs mcopy acc hp ht hread => exact ⟨le_refl 64, (rfl : 64 % 8 = 0)⟩
  | packetError e mcopy off hoff =>
    rw [State.OffAligned, raise_off]
    obtain rfl | ⟨i, hi, rfl⟩ := hoff
    · exact hs
    · simp only [BitVec.toNat_ofNat]; omega

/-- An operation keeps the invariant when its response is one the CORE can give: its own register holds its result, and
what it leaves alone stays as it was. -/
theorem Effect.inv (h : Effect s r x t) (hx : x.possible) (hs : s.Inv) : t.Inv := by
  have hend := h.endedWith
  have hresp : t.ResponsePossible := by rw [State.ResponsePossible, hend.response]; rintro _ ⟨⟩; exact hx
  have hmirror : t.ErrMirrors := by rw [State.ErrMirrors, hend.response]; exact hend.err
  cases r with
  | vout =>
    have hf := h.onlyVout
    exact ⟨h.voutHeld hs.voutHeld, hs.recordHeld.of_eq hf.record hf.recv, hs.bufHeld.of_eq hf.buf hf.bufv, hresp, hmirror,
      hf.validZero.trans hs.validReserved, by rw [State.OffAligned, hf.off]; exact hs.offAligned⟩
  | record =>
    have hf := h.onlyRecord
    exact ⟨hs.voutHeld.of_eq hf.vout hf.vlen hf.voutv, h.recordHeld hs.recordHeld, hs.bufHeld.of_eq hf.buf hf.bufv, hresp,
      hmirror, hf.validZero.trans hs.validReserved, by rw [State.OffAligned, hf.off]; exact hs.offAligned⟩
  | buf =>
    have hf := h.onlyBuf
    exact ⟨hs.voutHeld.of_eq hf.vout hf.vlen hf.voutv, hs.recordHeld.of_eq hf.record hf.recv, h.bufHeld hs.bufHeld, hresp,
      hmirror, hf.validZero.trans hs.validReserved, h.offAligned hs.offAligned⟩

theorem exec_inv (hi : i.wellFormed = true) (h : exec i s = .next t) (hs : s.Inv) : t.Inv := by
  obtain ⟨x, hx, he⟩ := effect_of_exec h
  exact he.inv (hx hi) hs

/-! ### What decodes is well formed (30_encoding.md R78) -/

/-- Bytes that decode to an instruction are a command's word and its operands. -/
theorem takeOperands_of_decode {rest : List Byte} (h : decode bs = .instr i rest) :
    ∃ c bs' cmd, bs = c :: bs' ∧ decodeCommand c = some cmd ∧ takeOperands cmd bs' = some (i, rest) := by
  cases bs with
  | nil => cases h
  | cons c bs' =>
    simp only [decode] at h
    split at h
    · cases h
    · rename_i cmd hc
      split at h
      · rename_i i' rest' ho
        cases h
        exact ⟨c, bs', cmd, rfl, hc, ho⟩
      · cases h

/-- A packet has as many slots as the four-bit count says, so at most fifteen. -/
theorem countFits_of_takePacket {n : BitVec 4} {rest : List Byte} {xs : List StepSlot} {md : Metadata}
    (h : takePacket n.toNat bs = some ((xs, md), rest)) : countFits xs = true := by
  have hl : xs.length = n.toNat := (eq_of_takeSlots (eq_of_takePacket h)).1
  exact decide_eq_true (show xs.length ≤ 15 by omega)

theorem wellFormed_of_takeOperands {cmd : Command} {rest : List Byte} (h : takeOperands cmd bs = some (i, rest)) :
    i.wellFormed = true := by
  cases cmd with
  | venc w =>
    simp only [takeOperands, takeVenc] at h
    split at h
    · cases h
    · cases w <;> cases h <;> rfl
  | renc t =>
    simp only [takeOperands, takeRenc] at h
    split at h
    · cases h
    · cases t <;> cases h <;> rfl
  | asm n =>
    simp only [takeOperands] at h
    split at h
    · rename_i hp; cases h; exact countFits_of_takePacket hp
    · cases h
  | frame n =>
    simp only [takeOperands] at h
    split at h
    · rename_i hp; cases h; exact countFits_of_takePacket hp
    · cases h

theorem wellFormed_of_decode {rest : List Byte} (h : decode bs = .instr i rest) : i.wellFormed = true := by
  obtain ⟨_, _, _, _, _, ho⟩ := takeOperands_of_decode h
  exact wellFormed_of_takeOperands ho

/-! ### The invariant after anything else the host does -/

/-- The invariant does not speak of what the host last read or does next. -/
theorem State.Inv.withHost (h : s.Inv) (d : Option Byte) (ins : List Input) :
    State.Inv { s with readData := d, inputs := ins } :=
  ⟨h.voutHeld, h.recordHeld, h.bufHeld, h.responsePossible, h.errMirrors, h.validReserved, h.offAligned⟩

theorem takeIllegalCommand_inv (h : s.Inv) : (takeIllegalCommand s).Inv :=
  ⟨h.voutHeld, h.recordHeld, h.bufHeld, by rintro _ ⟨⟩; trivial, rfl, h.validReserved, h.offAligned⟩

@[simp] theorem reset_isValid (r : ResultReg) : State.reset.isValid r = false := by cases r <;> decide

@[simp] theorem reset_space (r : ResultReg) : State.reset.space r = [] := by cases r <;> rfl

theorem reset_inv : State.reset.Inv where
  voutHeld := .inr ⟨reset_isValid .vout, rfl, rfl⟩
  recordHeld := .inr ⟨reset_isValid .record, rfl⟩
  bufHeld := .inr ⟨reset_isValid .buf, rfl⟩
  responsePossible := by rintro _ ⟨⟩
  errMirrors := rfl
  validReserved := by decide
  offAligned := by decide

theorem hardReset_inv (s : State) : (hardReset s).Inv := reset_inv.withHost none s.inputs

/-! ### A step on a host read or a reset -/

theorem step_reset {rest : List Input} (hin : s.inputs = .reset :: rest) :
    step s = .next (hardReset { s with inputs := rest }) := by
  simp only [step, takeNext, hin, takeInput]

/-- What the host does next does not enter what it reads. -/
theorem readReg_inputs (s : State) (ins : List Input) (q : HostReg) : readReg { s with inputs := ins } q = readReg s q := by
  cases q <;> rfl

theorem step_read {rest : List Input} {q : HostReg} (hin : s.inputs = .read q :: rest) :
    step s = hostRead q { s with inputs := rest } := by
  simp only [step, takeNext, hin, takeInput]

theorem step_read_ok {rest : List Input} {q : HostReg} {b : Byte} (hin : s.inputs = .read q :: rest)
    (h : readReg s q = .ok b) : step s = .next { s with readData := some b, inputs := rest } := by
  rw [step_read hin, hostRead, readReg_inputs, h]

theorem step_read_error {rest : List Input} {q : HostReg} {f : Fault} (hin : s.inputs = .read q :: rest)
    (h : readReg s q = .error f) : step s = .fault f := by
  rw [step_read hin, hostRead, readReg_inputs, h]

theorem readReg_vlen_ok {n : BitVec 4} (hv : s.isValid .vout = true) (hn : s.vlen = some n) :
    readReg s .vlen = .ok (n.zeroExtend 8) := by
  simp [readReg, hv, hn]

theorem readReg_vlen_invalid (hv : s.isValid .vout = false) : readReg s .vlen = .error .noValue := by
  simp [readReg, hv]

end

/-! ### The obligations -/

/-- Settles O44: of what a step can do, an operation keeps the invariant by its effect, a reset establishes it, and the rest
touches none of its registers but ERR and the response. -/
theorem stepKeepsTheInvariant : Obligations.StepKeepsTheInvariant := by
  unfold Obligations.StepKeepsTheInvariant
  intro s t hs h
  rcases step_cases h with ⟨_, rfl⟩ | ⟨bs, rest, i, extra, _, hdec, hexec⟩ | ⟨_, rest, _, _, _, rfl⟩ |
    ⟨_, rest, b, _, _, rfl⟩ | ⟨rest, _, rfl⟩
  · exact hs
  · exact exec_inv (wellFormed_of_decode hdec) hexec (hs.withHost s.readData rest)
  · exact takeIllegalCommand_inv (hs.withHost s.readData rest)
  · exact hs.withHost (some b) rest
  · exact hardReset_inv _

/-- Settles O12: under the invariant a valid register's offsets hold a byte each, and a read of a held byte answers it. -/
theorem hostReadGivesTheHeldByte : Obligations.HostReadGivesTheHeldByte := by
  unfold Obligations.HostReadGivesTheHeldByte
  intro s rest hs
  refine ⟨fun n k hv hn hk hin => ?_, fun n hv hn hin => ?_, fun k hk hv hin => ?_, fun k hk hv hin => ?_,
    fun hin => ?_, fun hin => ?_⟩
  · obtain ⟨hn8, hc⟩ := hs.voutHeld.covers_vlen hv hn
    obtain ⟨b, hb⟩ := Memory.exists_read_of_covers hc hk
    exact ⟨b, hb, step_read_ok hin (readSpace_ok (Nat.lt_of_lt_of_le hk hn8) hv hb)⟩
  · exact step_read_ok hin (readReg_vlen_ok hv hn)
  · obtain ⟨b, hb⟩ := Memory.exists_read_of_covers (hs.recordHeld.covers hv) hk
    exact ⟨b, hb, step_read_ok hin (readSpace_ok hk hv hb)⟩
  · obtain ⟨b, hb⟩ := Memory.exists_read_of_covers (hs.bufHeld.covers hv) hk
    exact ⟨b, hb, step_read_ok hin (readSpace_ok hk hv hb)⟩
  · exact step_read_ok hin rfl
  · exact step_read_ok hin rfl

/-- Settles O39: the response comes before the state is chosen (`exec_effect`), and ERR, the flag and the result follow from
the response. -/
theorem responseDependsOnTheRequestAlone : Obligations.ResponseDependsOnTheRequestAlone := by
  unfold Obligations.ResponseDependsOnTheRequestAlone
  intro i s s'
  obtain ⟨x, _, hall⟩ := exec_effect i
  obtain ⟨t, ht, he⟩ := hall s
  obtain ⟨t', ht', he'⟩ := hall s'
  have hend := he.endedWith
  have hend' := he'.endedWith
  exact ⟨t, t', ht, ht', hend.response.trans hend'.response.symm, hend.err.trans hend'.err.symm,
    hend.flag.trans hend'.flag.symm, fun k hk => (hend.held k hk).trans (hend'.held k hk).symm⟩

/-- Settles O41: each unit's effect has that unit's frame. -/
theorem operationsWriteOnlyTheirOwnRegisters : Obligations.OperationsWriteOnlyTheirOwnRegisters := by
  unfold Obligations.OperationsWriteOnlyTheirOwnRegisters
  intro i s t h
  obtain ⟨x, _, he⟩ := effect_of_exec h
  cases i with
  | venc1 v => exact he.onlyVout
  | venc2 v => exact he.onlyVout
  | venc4 v => exact he.onlyVout
  | venc8 v => exact he.onlyVout
  | rencTcs pay => exact he.onlyRecord
  | rencRqw pay => exact he.onlyRecord
  | rencC pay => exact he.onlyRecord
  | rencD pay => exact he.onlyRecord
  | asm steps md => exact ⟨he.onlyBuf, execAsm_keeps_mcopy_acc h⟩
  | frame steps md => exact he.onlyBuf

/-- Settles O10: the reset state's own values. -/
theorem resetValuesTheSpecGives : Obligations.ResetValuesTheSpecGives := by
  unfold Obligations.ResetValuesTheSpecGives
  exact ⟨rfl, rfl, rfl, fun r k => by rw [reset_space, Memory.read_nil]⟩

/-- Settles O9: the step is a reset, which leaves the reset state's values but for the host's further inputs. -/
theorem resetInputLeavesNoValue : Obligations.ResetInputLeavesNoValue := by
  unfold Obligations.ResetInputLeavesNoValue
  intro s rest hin
  refine ⟨_, step_reset hin, rfl, rfl, rfl, fun r k => ?_, rfl⟩
  rw [(hardReset_inv _).space_eq_nil (reset_isValid r), Memory.read_nil]

/-- Settles O11: under the invariant an invalid register's space is empty and VOUT ends at VLEN, and a read of no value is the
fault. -/
theorem invalidResultRegisterHasNoReading : Obligations.InvalidResultRegisterHasNoReading := by
  unfold Obligations.InvalidResultRegisterHasNoReading
  intro s rest hs
  refine ⟨fun r hv k => ?_, fun k hk hv hin => ?_, fun hv hin => ?_, fun k hk hv hin => ?_, fun k hk hv hin => ?_,
    fun n k hv hn hnk hk hin => ?_⟩
  · rw [hs.space_eq_nil hv, Memory.read_nil]
  · exact step_read_error hin (readSpace_invalid hk hv)
  · exact step_read_error hin (readReg_vlen_invalid hv)
  · exact step_read_error hin (readSpace_invalid hk hv)
  · exact step_read_error hin (readSpace_invalid hk hv)
  · obtain ⟨_, hc⟩ := hs.voutHeld.covers_vlen hv hn
    have hnone := Memory.read_eq_none_of_covers hc hnk
    exact ⟨hnone, step_read_error hin (readSpace_absent hk hnone)⟩

/-- Settles O43. -/
theorem resetMeetsTheInvariant : Obligations.ResetMeetsTheInvariant := reset_inv

end Sys2Proof.Machine
end

section
/-! SUPPORT. Each operation's effect keeps the byte-addressed spaces in canonical form; then the obligation of 20_memory.md. -/

namespace Sys2Proof.Machine

/-- An operation writes bytes into its own space in the canonical place, or empties it, and leaves the other two alone
(10_state.md R33, R36). -/
theorem Effect.canonical {s t : State} {r : ResultReg} {x : Response} (h : Effect s r x t) (hs : s.Canonical) :
    t.Canonical := by
  obtain ⟨hvout, hrecord, hbuf⟩ := hs
  cases h with
  | value w v hw => exact ⟨Memory.wf_dropFrom w (Memory.wf_writeBytes _ 0 hvout), hrecord, hbuf⟩
  | record bs hl => exact ⟨hvout, Memory.wf_writeBytes bs 0 hrecord, hbuf⟩
  | recordError e => exact ⟨hvout, Memory.wf_nil, hbuf⟩
  | packet p tail bs mcopy acc hp ht hread =>
    exact ⟨hvout, hrecord, Memory.wf_writeBytes tail 62 (Memory.wf_writeBytes p 0 hbuf)⟩
  | packetError e mcopy off hoff => exact ⟨hvout, hrecord, Memory.wf_nil⟩

theorem exec_canonical {i : Instr} {s t : State} (h : exec i s = .next t) (hs : s.Canonical) : t.Canonical := by
  obtain ⟨_, _, he⟩ := effect_of_exec h
  exact he.canonical hs

theorem hardReset_canonical (s : State) : (hardReset s).Canonical := ⟨Memory.wf_nil, Memory.wf_nil, Memory.wf_nil⟩

/-- Settles O45: of what a step can do, an operation keeps the form by its effect, a reset empties the spaces, and the rest
touches none of them. -/
theorem stepKeepsTheCanonicalForm : Obligations.StepKeepsTheCanonicalForm := by
  unfold Obligations.StepKeepsTheCanonicalForm
  intro s t hs h
  rcases step_cases h with ⟨_, rfl⟩ | ⟨_, _, _, _, _, _, hexec⟩ | ⟨_, _, _, _, _, rfl⟩ | ⟨_, _, _, _, _, rfl⟩ |
    ⟨_, _, rfl⟩
  · exact hs
  · exact exec_canonical hexec hs
  · exact hs
  · exact hs
  · exact hardReset_canonical _

end Sys2Proof.Machine
end

section
/-! SUPPORT. Operands in bytes both ways: reading back what the encoder wrote, and what bytes that read as operands look
like; then the obligations of 30_encoding.md. -/

namespace Sys2Proof.Machine

section

variable {i : Instr} {bs ys rest : List Byte} {w : Width} {t : Tag} {n x : Nat}

/-! ### A value operand in its own number of bytes (log entry 1) -/

theorem two_pow_eight_mul (n : Nat) : 2 ^ (8 * n) = 256 ^ n := Nat.pow_mul 2 8 n

/-- A word written in its own number of bytes reads back whole. -/
theorem takeValue_putValue_toNat (n : Nat) (v : BitVec (8 * n)) (rest : List Byte) :
    takeValue n (putValue n v.toNat ++ rest) = some (v.toNat, rest) := by
  have hv : v.toNat < 256 ^ n := two_pow_eight_mul n ▸ v.isLt
  rw [takeValue_putValue, Nat.mod_eq_of_lt hv]

/-- A number that fits `n` bytes loses nothing in the word of that width. -/
theorem toNat_ofNat_of_fits (h : x < 256 ^ n) : (BitVec.ofNat (8 * n) x).toNat = x := by
  rw [BitVec.toNat_ofNat, two_pow_eight_mul, Nat.mod_eq_of_lt h]

/-- The VENC of a width, its operand given as a number (30_encoding.md R85). -/
def vencOf : Width → Nat → Instr
  | .w1, x => .venc1 (BitVec.ofNat 8 x)
  | .w2, x => .venc2 (BitVec.ofNat 16 x)
  | .w4, x => .venc4 (BitVec.ofNat 32 x)
  | .w8, x => .venc8 (BitVec.ofNat 64 x)

/-- The RENC of a variant, its payload given as a number (30_encoding.md R85). -/
def rencOf : Tag → Nat → Instr
  | .timedColorStep, x => .rencTcs (BitVec.ofNat 64 x)
  | .rawQuadWord, x => .rencRqw (BitVec.ofNat 64 x)
  | .reservedC, x => .rencC (BitVec.ofNat 64 x)
  | .reservedD, x => .rencD (BitVec.ofNat 64 x)

@[simp] theorem command_vencOf (w : Width) (x : Nat) : (vencOf w x).command = .venc w := by cases w <;> rfl
@[simp] theorem command_rencOf (t : Tag) (x : Nat) : (rencOf t x).command = .renc t := by cases t <;> rfl

theorem operandBytes_vencOf (h : x < 256 ^ w.bytes) : (vencOf w x).operandBytes = putValue w.bytes x := by
  cases w with
  | w1 => exact congrArg (putValue 1) (toNat_ofNat_of_fits (n := 1) h)
  | w2 => exact congrArg (putValue 2) (toNat_ofNat_of_fits (n := 2) h)
  | w4 => exact congrArg (putValue 4) (toNat_ofNat_of_fits (n := 4) h)
  | w8 => exact congrArg (putValue 8) (toNat_ofNat_of_fits (n := 8) h)

theorem operandBytes_rencOf (h : x < 256 ^ 8) : (rencOf t x).operandBytes = putValue 8 x := by
  have hx : (BitVec.ofNat 64 x).toNat = x := toNat_ofNat_of_fits (n := 8) h
  cases t <;> exact congrArg (putValue 8) hx

theorem takeOperands_venc_eq_some :
    takeOperands (.venc w) bs = some (i, rest) ↔ ∃ x, takeValue w.bytes bs = some (x, rest) ∧ vencOf w x = i := by
  rw [takeOperands, takeVenc]
  split
  · next hv => simp [hv]
  · next v rest' hv => cases w <;> simp [hv, vencOf, and_comm]

theorem takeOperands_renc_eq_some :
    takeOperands (.renc t) bs = some (i, rest) ↔ ∃ x, takeValue 8 bs = some (x, rest) ∧ rencOf t x = i := by
  rw [takeOperands, takeRenc]
  split
  · next hv => simp [hv]
  · next v rest' hv => cases t <;> simp [hv, rencOf, and_comm]

theorem takeOperands_asm_eq_some {m : BitVec 4} : takeOperands (.asm m) bs = some (i, rest) ↔
    ∃ xs md, takePacket m.toNat bs = some ((xs, md), rest) ∧ .asm xs md = i := by
  rw [takeOperands]
  split
  · next xs md rest' hp => simp [hp, and_comm]
  · next hp => simp [hp]

theorem takeOperands_frame_eq_some {m : BitVec 4} : takeOperands (.frame m) bs = some (i, rest) ↔
    ∃ xs md, takePacket m.toNat bs = some ((xs, md), rest) ∧ .frame xs md = i := by
  rw [takeOperands]
  split
  · next xs md rest' hp => simp [hp, and_comm]
  · next hp => simp [hp]

/-! ### Reading back what the encoder wrote -/

/-- The count of a well-formed packet request reads back its slots and Metadata (30_encoding.md R78, R79). -/
theorem takePacket_count {xs : List StepSlot} (h : countFits xs = true) (md : Metadata) (rest : List Byte) :
    takePacket (BitVec.ofNat 4 xs.length).toNat (xs.flatMap slotBytes ++ md.bytes ++ rest) = some ((xs, md), rest) := by
  rw [Laws.RequestLength.count_toNat h, takePacket_bytes]

theorem takeOperands_operandBytes (h : i.wellFormed = true) (rest : List Byte) :
    takeOperands i.command (i.operandBytes ++ rest) = some (i, rest) := by
  cases i with
  | venc1 v => exact takeOperands_venc_eq_some.mpr ⟨_, takeValue_putValue_toNat 1 v rest, by simp [vencOf]⟩
  | venc2 v => exact takeOperands_venc_eq_some.mpr ⟨_, takeValue_putValue_toNat 2 v rest, by simp [vencOf]⟩
  | venc4 v => exact takeOperands_venc_eq_some.mpr ⟨_, takeValue_putValue_toNat 4 v rest, by simp [vencOf]⟩
  | venc8 v => exact takeOperands_venc_eq_some.mpr ⟨_, takeValue_putValue_toNat 8 v rest, by simp [vencOf]⟩
  | rencTcs pay => exact takeOperands_renc_eq_some.mpr ⟨_, takeValue_putValue_toNat 8 pay rest, by simp [rencOf]⟩
  | rencRqw pay => exact takeOperands_renc_eq_some.mpr ⟨_, takeValue_putValue_toNat 8 pay rest, by simp [rencOf]⟩
  | rencC pay => exact takeOperands_renc_eq_some.mpr ⟨_, takeValue_putValue_toNat 8 pay rest, by simp [rencOf]⟩
  | rencD pay => exact takeOperands_renc_eq_some.mpr ⟨_, takeValue_putValue_toNat 8 pay rest, by simp [rencOf]⟩
  | asm steps md => exact takeOperands_asm_eq_some.mpr ⟨_, _, takePacket_count h md rest, rfl⟩
  | frame steps md => exact takeOperands_frame_eq_some.mpr ⟨_, _, takePacket_count h md rest, rfl⟩

theorem decode_encode (h : i.wellFormed = true) (rest : List Byte) : decode (encode i ++ rest) = .instr i rest := by
  simp only [encode, List.cons_append, decode, decodeCommand_word, takeOperands_operandBytes h]

/-! ### What bytes that read as operands look like -/

/-- The bytes `ys` are the operands of `i`: as many as the encoder writes and each the one it writes, but that of a slot's tag
byte only the tag itself is looked at (30_encoding.md R80). -/
structure CarriesOperands (i : Instr) (ys : List Byte) : Prop where
  length : ys.length = i.operandBytes.length
  bytes : ∀ k, ¬ IsTagOffset i (k + 1) → ys[k]? = i.operandBytes[k]?
  tags : ∀ k, IsTagOffset i (k + 1) →
    ys[k]?.map (BitVec.extractLsb' 0 2) = i.operandBytes[k]?.map (BitVec.extractLsb' 0 2)

theorem carriesOperands_of_eq (h : i.operandBytes = ys) : CarriesOperands i ys where
  length := by rw [h]
  bytes _ _ := by rw [h]
  tags _ _ := by rw [h]

/-- Slots and Metadata read from `bs` are the operands of any request for a packet of them. -/
theorem carriesOperands_of_takePacket {xs : List StepSlot} {md : Metadata} (h : takePacket n bs = some ((xs, md), rest))
    (hslots : slotsOf i = xs) (hbytes : i.operandBytes = xs.flatMap slotBytes ++ md.bytes) :
    ∃ ys, bs = ys ++ rest ∧ CarriesOperands i ys := by
  obtain ⟨hxs, zs, rfl, hzs, hrest, htags⟩ := eq_of_takeSlots (eq_of_takePacket h)
  have hflat : (xs.flatMap slotBytes).length = 9 * n := by rw [length_slotsBytes, hxs]
  refine ⟨zs ++ md.bytes, by simp, ⟨by simp [hbytes, hzs, hflat], fun k hk => ?_, fun k hk => ?_⟩⟩
  all_goals simp only [IsTagOffset, hslots, hxs] at hk
  · rw [hbytes]
    rcases Nat.lt_or_ge k (9 * n) with hlt | hge
    · rw [List.getElem?_append_left (by omega), List.getElem?_append_left (by omega), hrest k (by omega)]
    · rw [List.getElem?_append_right (by omega), List.getElem?_append_right (by omega), hzs, hflat]
  · rw [hbytes, List.getElem?_append_left (by omega), List.getElem?_append_left (by omega), htags k (by omega)]

/-- As many slots are read as the count field says (30_encoding.md R78). -/
theorem count_of_takePacket {m : BitVec 4} {xs : List StepSlot} {md : Metadata}
    (h : takePacket m.toNat bs = some ((xs, md), rest)) : BitVec.ofNat 4 xs.length = m := by
  rw [(eq_of_takeSlots (eq_of_takePacket h)).1, BitVec.ofNat_toNat, BitVec.setWidth_eq]

/-- Whatever reads as a command's operands is the operands of an instruction of that command, then the bytes left over. -/
theorem carriesOperands_of_takeOperands {cmd : Command} (h : takeOperands cmd bs = some (i, rest)) :
    i.command = cmd ∧ ∃ ys, bs = ys ++ rest ∧ CarriesOperands i ys := by
  cases cmd with
  | venc w =>
    obtain ⟨x, hx, rfl⟩ := takeOperands_venc_eq_some.mp h
    obtain ⟨hlt, rfl⟩ := eq_of_takeValue hx
    exact ⟨command_vencOf w x, _, rfl, carriesOperands_of_eq (operandBytes_vencOf hlt)⟩
  | renc t =>
    obtain ⟨x, hx, rfl⟩ := takeOperands_renc_eq_some.mp h
    obtain ⟨hlt, rfl⟩ := eq_of_takeValue hx
    exact ⟨command_rencOf t x, _, rfl, carriesOperands_of_eq (operandBytes_rencOf hlt)⟩
  | asm m =>
    obtain ⟨xs, md, hp, rfl⟩ := takeOperands_asm_eq_some.mp h
    exact ⟨congrArg Command.asm (count_of_takePacket hp), carriesOperands_of_takePacket hp rfl rfl⟩
  | frame m =>
    obtain ⟨xs, md, hp, rfl⟩ := takeOperands_frame_eq_some.mp h
    exact ⟨congrArg Command.frame (count_of_takePacket hp), carriesOperands_of_takePacket hp rfl rfl⟩

theorem length_slots_le_operandBytes (i : Instr) : 9 * (slotsOf i).length ≤ i.operandBytes.length := by
  cases i <;> simp [slotsOf, Instr.operandBytes] <;> omega

/-- An instruction's command word and then its operands are its request, whatever follows (30_encoding.md R79). -/
theorem CarriesOperands.carriesRequest (h : CarriesOperands i ys) (rest : List Byte) :
    CarriesRequest i (i.command.word :: (ys ++ rest)) where
  allThere := by simp [encode, h.length]
  bytes k hk hn := by
    cases k with
    | zero => rfl
    | succ k =>
      have hlt : k < ys.length := by simpa [encode, h.length] using hk
      rw [encode, List.getElem?_cons_succ, List.getElem?_cons_succ, List.getElem?_append_left hlt, h.bytes k hn]
  tags k hk := by
    cases k with
    | zero => exact absurd hk.2 (by decide)
    | succ k =>
      have hlt : k < ys.length := by
        rw [h.length]
        exact Nat.lt_of_lt_of_le (Nat.lt_of_succ_lt hk.1) (length_slots_le_operandBytes i)
      rw [encode, List.getElem?_cons_succ, List.getElem?_cons_succ, List.getElem?_append_left hlt, h.tags k hk]

/-- Bytes that decode to an instruction are its command word, its operands and the bytes left over. -/
theorem eq_of_decode (h : decode bs = .instr i rest) :
    ∃ ys, bs = i.command.word :: (ys ++ rest) ∧ CarriesOperands i ys := by
  obtain ⟨c, bs', cmd, rfl, hc, ho⟩ := takeOperands_of_decode h
  obtain ⟨rfl, ys, rfl, hys⟩ := carriesOperands_of_takeOperands ho
  exact ⟨ys, by rw [word_of_decodeCommand hc], hys⟩

/-! ### The command word's rule (30_encoding.md R89) -/

theorem decodeCommand_eq_none_iff (c : Byte) :
    decodeCommand c = none ↔ cmdRsv c ≠ 0#2 ∨ ((cmdUnit c = 0#2 ∨ cmdUnit c = 1#2) ∧ cmdArgHi c ≠ 0#2) := by
  rw [decodeCommand]
  by_cases hrsv : cmdRsv c = 0#2
  · by_cases hvenc : cmdUnit c = 0#2
    · simp [hrsv, hvenc]
    · by_cases hrenc : cmdUnit c = 1#2
      · simp [hrsv, hrenc]
      · by_cases hasm : cmdUnit c = 2#2 <;> simp [hrsv, hvenc, hrenc, hasm]
  · simp [hrsv]

/-! ### A TimedColorStep's payload (10_state.md R24) -/

@[simp] theorem byteOf_append_zero (v : BitVec n) (b : Byte) : byteOf (v ++ b) 0 = b :=
  BitVec.extractLsb'_append_eq_right

@[simp] theorem byteOf_append_succ (v : BitVec n) (b : Byte) (k : Nat) : byteOf (v ++ b) (k + 1) = byteOf v k := by
  rw [byteOf, BitVec.extractLsb'_append_eq_of_le (by omega), byteOf, show 8 * (k + 1) - 8 = 8 * k by omega]

@[simp] theorem byteOf_byte (b : Byte) : byteOf b 0 = b := BitVec.extractLsb'_eq_self

/-- The fields of a packed payload are the fields packed. -/
theorem timedColorOf_packTimedColor (f : TimedColorStep) : timedColorOf (packTimedColor f) = f := by
  simp only [timedColorOf, packTimedColor, byteOf_append_zero, byteOf_append_succ, byteOf_byte]

/-- The record of a packed payload is its fields in declared order (30_encoding.md R71). -/
theorem le_packTimedColor (f : TimedColorStep) : le 8 (packTimedColor f) =
    [f.opcodeTarget, f.repeats, f.red, f.green, f.blue, f.onTime, f.offTime, f.padding] :=
  congrArg (fun g => recordOf (.timedColor g)) (timedColorOf_packTimedColor f)

end

/-! ### The obligations -/

/-- Settles O1: each part of the decoder reads back what the encoder wrote. -/
theorem decodeOfEncodeIsTheInstruction : Obligations.DecodeOfEncodeIsTheInstruction := by
  unfold Obligations.DecodeOfEncodeIsTheInstruction
  intro i rest h
  exact decode_encode h rest

/-- Settles O2: the bytes are the command word, the operands and the bytes left over. -/
theorem decodedInstructionIsWellFormed : Obligations.DecodedInstructionIsWellFormed := by
  unfold Obligations.DecodedInstructionIsWellFormed
  intro bs rest i h
  have hwf := wellFormed_of_decode h
  obtain ⟨ys, rfl, hys⟩ := eq_of_decode h
  exact ⟨hwf, rfl, hys.carriesRequest rest, by simp [encode, ← hys.length]⟩

/-- Settles O22: RENC.TCS answers the payload's bytes, which are the fields packed in it. -/
theorem timedColorStepRecordIsItsFields : Obligations.TimedColorStepRecordIsItsFields := by
  unfold Obligations.TimedColorStepRecordIsItsFields
  intro f s
  have hfields := timedColorOf_packTimedColor f
  exact ⟨packTimedColor f, _, rfl, congrArg TimedColorStep.opcodeTarget hfields, congrArg TimedColorStep.repeats hfields,
    congrArg TimedColorStep.red hfields, congrArg TimedColorStep.green hfields, congrArg TimedColorStep.blue hfields,
    congrArg TimedColorStep.onTime hfields, congrArg TimedColorStep.offTime hfields,
    congrArg TimedColorStep.padding hfields, execRencTcs_eq (packTimedColor f) s,
    le_packTimedColor f ▸ succeed_succeeded .record _ _⟩

/-- Settles O3: each word is the encoder's own, and so are the bytes of each request. -/
theorem commandWordsReadAsTheTableSays : Obligations.CommandWordsReadAsTheTableSays := by
  unfold Obligations.CommandWordsReadAsTheTableSays
  exact ⟨decodeCommand_word (.venc .w1), decodeCommand_word (.venc .w2), decodeCommand_word (.venc .w4),
    decodeCommand_word (.venc .w8), decodeCommand_word (.renc .timedColorStep), decodeCommand_word (.renc .rawQuadWord),
    decodeCommand_word (.renc .reservedC), decodeCommand_word (.renc .reservedD), decodeCommand_word (.asm 0),
    decodeCommand_word (.asm 7), decodeCommand_word (.asm 15), decodeCommand_word (.frame 0),
    decodeCommand_word (.frame 7), decodeCommand_word (.frame 15), decode_encode (i := .venc2 0x1234) rfl [],
    decode_encode (i := .rencTcs 0x8F) rfl [], decode_encode (i := .asm [] ⟨1, 2, 3, 4, 5, 6, 7, 8⟩) rfl [],
    decode_encode (i := .frame [⟨.reservedC, 0x8000000000000001⟩] ⟨1, 2, 3, 4, 5, 6, 7, 8⟩) rfl []⟩

/-- Settles O4: the refusing condition by the decoder's branches, the counts over all 256 words. -/
theorem reservedWordsAreThoseOfTheRule : Obligations.ReservedWordsAreThoseOfTheRule := by
  unfold Obligations.ReservedWordsAreThoseOfTheRule
  exact ⟨decodeCommand_eq_none_iff, by decide +kernel, by decide +kernel⟩

/-- Settles O24: both slots are of a defined variant, so each encodes to its payload's bytes. -/
theorem emptyAndKeepAliveSlots : Obligations.EmptyAndKeepAliveSlots := by
  unfold Obligations.EmptyAndKeepAliveSlots
  exact ⟨rfl, renc_defined (.inr rfl), rfl, renc_defined (.inl rfl)⟩

end Sys2Proof.Machine
end

section
/-! SUPPORT. The little-endian image cut, narrowed and widened, and what a VENC leaves behind; then the obligations of
40_value_encoder.md. -/

namespace Sys2Proof.Machine

/-! ### The image of a narrower, a wider and a shifted value -/

theorem byteOf_ushiftRight {n : Nat} (v : BitVec n) (j k : Nat) : byteOf (v >>> (8 * j)) k = byteOf v (j + k) := by
  apply BitVec.eq_of_toNat_eq
  simp only [byteOf, BitVec.extractLsb'_toNat, BitVec.toNat_ushiftRight, ← Nat.shiftRight_add, Nat.mul_add]

/-- Bytes below a width are the same at that width. -/
theorem byteOf_setWidth {n m k : Nat} (v : BitVec n) (h : 8 * k + 8 ≤ m) : byteOf (v.setWidth m) k = byteOf v k :=
  BitVec.extractLsb'_setWidth_of_le h

/-- An image is one of its first `w` bytes and one of the rest. -/
theorem le_add (w w' : Nat) {n : Nat} (v : BitVec n) : le (w + w') v = le w v ++ le w' (v >>> (8 * w)) := by
  simp only [le, List.range_add, List.map_append, List.map_map]
  congr 1
  exact List.map_congr_left fun k _ => (byteOf_ushiftRight v w k).symm

/-- An image depends on no bit above its own bytes. -/
theorem le_setWidth {w n m : Nat} (v : BitVec n) (h : 8 * w ≤ m) : le w (v.setWidth m) = le w v :=
  List.map_congr_left fun k hk => byteOf_setWidth v (by have := List.mem_range.mp hk; omega)

/-- An image splits into those of its value's low and high words (40_value_encoder.md R105 e). -/
theorem le_split (w w' : Nat) {n : Nat} (v : BitVec n) :
    le (w + w') v = le w (v.setWidth (8 * w)) ++ le w' ((v >>> (8 * w)).setWidth (8 * w')) := by
  rw [le_add, le_setWidth v le_rfl, le_setWidth _ le_rfl]

theorem le_zero_word (w n : Nat) : le w (0#n) = List.replicate w 0#8 := by
  refine List.eq_replicate_iff.mpr ⟨length_le w _, fun b hb => ?_⟩
  obtain ⟨k, _, rfl⟩ := List.mem_map.mp hb
  exact BitVec.extractLsb'_zero

/-- A wider image is the image followed by zero bytes. -/
theorem le_widen (w d : Nat) (v : BitVec (8 * w)) :
    le (w + d) (v.setWidth (8 * (w + d))) = le w v ++ List.replicate d 0#8 := by
  have hhigh : v.setWidth (8 * (w + d)) >>> (8 * w) = 0#(8 * (w + d)) := by
    apply BitVec.eq_of_toNat_eq
    rw [BitVec.toNat_ushiftRight, BitVec.toNat_setWidth_of_le (by omega), BitVec.toNat_zero,
      Nat.shiftRight_eq_zero _ _ v.isLt]
  rw [le_add, le_setWidth v (by omega), hhigh, le_zero_word]

/-! ### Values and their images, one to one -/

theorem le_injective {w : Nat} {v v' : BitVec (8 * w)} (h : le w v = le w v') : v = v' :=
  BitVec.eq_of_toNat_eq (by rw [← littleEndian_le_self w v, h, littleEndian_le_self])

/-- A byte appended below a value comes first in the image. -/
theorem le_append_byte (w : Nat) {n : Nat} (v : BitVec n) (b : Byte) : le (w + 1) (v ++ b) = b :: le w v := by
  simp [le, List.range_succ_eq_map, Function.comp_def]

/-- Every byte list is the image of a value of its own width. -/
theorem exists_le_eq (bs : List Byte) : ∃ v : BitVec (8 * bs.length), le bs.length v = bs := by
  induction bs with
  | nil => exact ⟨0#0, rfl⟩
  | cons b bs ih =>
    obtain ⟨v, hv⟩ := ih
    exact ⟨v ++ b, (le_append_byte bs.length v b).trans (congrArg (b :: ·) hv)⟩

theorem le_one (v : Byte) : le 1 v = [v] := congrArg (fun b => [b]) (byteOf_byte v)

/-! ### What a VENC leaves behind (40_value_encoder.md R101 to R104) -/

/-- A VENC of `w` bytes completes: VOUT holds the image and no value above it, VLEN is `w`, the response is the image, and
nothing outside its own unit differs. -/
theorem encodeValue_outcome (w : Nat) {n : Nat} (v : BitVec n) (s : State) :
    ∃ t, encodeValue w v s = .next t ∧ (∀ k < w, t.vout.read k = some (byteOf v k)) ∧
      (∀ k, w ≤ k → t.vout.read k = none) ∧ t.vlen = some (BitVec.ofNat 4 w) ∧ Succeeded .vout (le w v) t ∧
      OnlyVout s t := by
  refine ⟨_, encodeValue_eq w v s, fun k hk => ?_, fun k hk => ?_, rfl, succeed_succeeded .vout _ _,
    OnlyVout.succeed ⟨rfl, rfl, rfl, rfl, rfl, rfl, rfl, rfl, rfl, rfl⟩⟩
  · exact (read_value s.vout w v k).trans (by rw [getElem?_le, if_pos hk])
  · exact (read_value s.vout w v k).trans (by rw [getElem?_le, if_neg (by omega)])

/-! ### The obligations -/

/-- Settles O17: the image read as a number gives the round trip and injectivity, a value built byte by byte gives every
byte list, and cutting the image gives the widening and the splits. -/
theorem lawsOfTheLittleEndianImage : Obligations.LawsOfTheLittleEndianImage := by
  unfold Obligations.LawsOfTheLittleEndianImage
  refine ⟨fun w v => length_le w v, littleEndian_le_self, fun w v v' => le_injective, fun w bs hl => ?_,
    fun w w' v hw => ?_, fun v => le_split 4 4 v, fun v => le_split 2 2 v, fun v => le_split 1 1 v, le_one⟩
  · subst hl
    exact exists_le_eq bs
  · obtain ⟨d, rfl⟩ := Nat.exists_eq_add_of_le hw
    rw [le_widen, Nat.add_sub_cancel_left]

/-- Settles O13: the image of one byte is that byte. -/
theorem venc1GivesTheByte : Obligations.Venc1GivesTheByte := by
  unfold Obligations.Venc1GivesTheByte
  intro v s
  obtain ⟨t, ht, hread, hnone, hvlen, hok, hframe⟩ := encodeValue_outcome 1 v s
  have hbyte : t.vout.read 0 = some v := by rw [hread 0 (by omega), byteOf_byte]
  exact ⟨rfl, t, ht, hbyte, fun k hk _ => hnone k hk, hvlen, le_one v ▸ hok, hframe⟩

/-- Settles O14: the outcome of a VENC of two bytes. -/
theorem venc2GivesLowByteFirst : Obligations.Venc2GivesLowByteFirst := by
  unfold Obligations.Venc2GivesLowByteFirst
  intro v s
  obtain ⟨t, ht, hread, hnone, hvlen, hok, hframe⟩ := encodeValue_outcome 2 v s
  exact ⟨rfl, t, ht, hread 0 (by omega), hread 1 (by omega), fun k hk _ => hnone k hk, hvlen, hok, hframe⟩

/-- Settles O15: the outcome of a VENC of four bytes. -/
theorem venc4GivesLowByteFirst : Obligations.Venc4GivesLowByteFirst := by
  unfold Obligations.Venc4GivesLowByteFirst
  intro v s
  obtain ⟨t, ht, hread, hnone, hvlen, hok, hframe⟩ := encodeValue_outcome 4 v s
  exact ⟨rfl, t, ht, hread, fun k hk _ => hnone k hk, hvlen, hok, hframe⟩

/-- Settles O16: the outcome of a VENC of eight bytes, which leaves no offset of VOUT without a value. -/
theorem venc8GivesLowByteFirst : Obligations.Venc8GivesLowByteFirst := by
  unfold Obligations.Venc8GivesLowByteFirst
  intro v s
  obtain ⟨t, ht, hread, _, hvlen, hok, hframe⟩ := encodeValue_outcome 8 v s
  exact ⟨rfl, t, ht, hread, hvlen, hok, hframe⟩

end Sys2Proof.Machine
end

section
/-! SUPPORT. What `renc` answers for each kind of variant, and what a RENC of a defined and of a reserved variant leaves
behind; then the obligations of 41_record_encoder.md. -/

namespace Sys2Proof.Machine

section

variable {t : Tag}

/-! ### The answers of `renc` (41_record_encoder.md R110, R116) -/

/-- A defined variant's answer, its payload apart (`renc_defined` speaks of a slot). -/
theorem renc_eq_le (hd : t = .timedColorStep ∨ t = .rawQuadWord) (pay : BitVec 64) : renc t pay = .ok (le 8 pay) :=
  renc_defined (x := ⟨t, pay⟩) hd

/-- A defined variant answers eight bytes and a reserved one none (41_record_encoder.md R116 b). -/
theorem length_of_renc_ok {pay : BitVec 64} {r : List Byte} (h : renc t pay = .ok r) : r.length = 8 := by
  by_cases hd : slotDefined ⟨t, pay⟩
  · cases (renc_eq_le hd pay).symm.trans h
    exact length_le 8 pay
  · cases (renc_reserved hd).symm.trans h

/-- Two payloads of a defined variant with the same answer have the same image (41_record_encoder.md R116 c). -/
theorem renc_injective {pay pay' : BitVec 64} (hd : t = .timedColorStep ∨ t = .rawQuadWord)
    (h : renc t pay = renc t pay') : pay = pay' := by
  rw [renc_eq_le hd, renc_eq_le hd] at h
  exact le_injective (w := 8) (Except.ok.inj h)

/-- A zero payload's record is eight zero bytes (41_record_encoder.md R116 d). -/
theorem renc_zero (hd : t = .timedColorStep ∨ t = .rawQuadWord) : renc t 0#64 = .ok (List.replicate 8 0#8) := by
  rw [renc_eq_le hd, le_zero_word]

/-! ### What a RENC leaves behind (41_record_encoder.md R111 to R114) -/

/-- A RENC of a defined variant completes: REC holds the payload's image, which is the response, and nothing outside its own
unit differs. -/
theorem encodeRecord_defined_outcome {pay : BitVec 64} (hd : slotDefined ⟨t, pay⟩) (s : State) :
    ∃ u, encodeRecord t pay s = .next u ∧ (∀ k < 8, u.record.read k = some (byteOf pay k)) ∧
      Succeeded .record (le 8 pay) u ∧ OnlyRecord s u := by
  have heffect := Effect.record (s := s) (le 8 pay) (length_le 8 pay)
  refine ⟨_, encodeRecord_defined hd s, fun k hk => ?_, succeed_succeeded .record _ _, heffect.onlyRecord⟩
  exact (heffect.endedWith.held k hk).trans (by rw [Response.result, getElem?_le, if_pos hk])

/-- A RENC of a reserved variant completes in one next state, whatever the payload: MalformedRecord with actual 0 is raised
on REC, and nothing outside its own unit differs. -/
theorem encodeRecord_reserved_outcome (hr : ∀ pay, ¬ slotDefined ⟨t, pay⟩) (s : State) :
    ∃ u, (∀ pay, encodeRecord t pay s = .next u) ∧ Failed .record (.malformedRecord 0) u ∧ errCode u.err = 1#2 ∧
      errActual u.err = 0#4 ∧ OnlyRecord s u :=
  ⟨_, fun pay => encodeRecord_reserved (hr pay) s, raise_failed .record _ s, errCode_errWord (.malformedRecord 0),
    errActual_errWord (.malformedRecord 0), (Effect.recordError (s := s) (.malformedRecord 0)).onlyRecord⟩

end

/-! ### The obligations -/

/-- Settles O23: a defined variant's record is the payload's image, so the laws of `le` are those of `renc`. -/
theorem lawsOfRenc : Obligations.LawsOfRenc := by
  unfold Obligations.LawsOfRenc
  refine ⟨fun t pay hd => renc_eq_le hd pay, fun t pay r => length_of_renc_ok, fun t pay pay' => renc_injective,
    fun p => ?_, renc_zero (.inr rfl), renc_zero (.inl rfl)⟩
  rw [renc_eq_le (.inl rfl), renc_eq_le (.inr rfl)]

/-- Settles O18: the outcome of a RENC of a defined variant, its image written out byte by byte. -/
theorem rencTcsGivesTheEightFields : Obligations.RencTcsGivesTheEightFields := by
  unfold Obligations.RencTcsGivesTheEightFields
  exact fun pay s => ⟨rfl, encodeRecord_defined_outcome (t := .timedColorStep) (.inl rfl) s⟩

/-- Settles O19: the outcome of a RENC of a defined variant. -/
theorem rencRqwGivesTheLittleEndianValue : Obligations.RencRqwGivesTheLittleEndianValue := by
  unfold Obligations.RencRqwGivesTheLittleEndianValue
  exact fun pay s => ⟨rfl, encodeRecord_defined_outcome (t := .rawQuadWord) (.inr rfl) s⟩

/-- Settles O20: the outcome of a RENC of a reserved variant, which no payload changes. -/
theorem rencCRaisesMalformedRecord : Obligations.RencCRaisesMalformedRecord := by
  unfold Obligations.RencCRaisesMalformedRecord
  intro pay s
  obtain ⟨t, ht, hfailed, hcode, hactual, hframe⟩ := encodeRecord_reserved_outcome not_defined_reservedC s
  exact ⟨rfl, t, ht pay, hfailed, hcode, hactual, rfl, hframe, ht⟩

/-- Settles O21: the outcome of a RENC of a reserved variant, which no payload changes. -/
theorem rencDRaisesMalformedRecord : Obligations.RencDRaisesMalformedRecord := by
  unfold Obligations.RencDRaisesMalformedRecord
  intro pay s
  obtain ⟨t, ht, hfailed, hcode, hactual, hframe⟩ := encodeRecord_reserved_outcome not_defined_reservedD s
  exact ⟨rfl, t, ht pay, hfailed, hcode, hactual, rfl, hframe, ht⟩

end Sys2Proof.Machine
end

section
/-! SUPPORT. The packet's bytes at their offsets, that they determine payloads and Metadata, and what an ASM of seven defined
slots leaves behind; then the obligations of 42_packet_assembler.md. -/

namespace Sys2Proof.Machine

section

variable {steps steps' : List StepSlot} {md md' : Metadata}

/-! ### The packet's bytes (20_memory.md R60) -/

theorem length_packetBytes_packable (h : Packable steps) (md : Metadata) : (packetBytes steps md).length = 64 := by
  rw [length_packetBytes, h.1]

/-- Byte `8i + j` of a packet is byte `j` of slot `i`'s payload. -/
theorem getElem?_packetBytes_record {i j : Nat} {x : StepSlot} (hx : steps[i]? = some x) (hj : j < 8) (md : Metadata) :
    (packetBytes steps md)[8 * i + j]? = some (byteOf x.pay j) := by
  obtain ⟨hi, _⟩ := List.getElem?_eq_some_iff.mp hx
  rw [packetBytes, List.getElem?_append_left (by rw [length_records]; omega), getElem?_records _ _ _ hj, hx, Option.map_some]

/-- After seven records, from offset 56 on, come the Metadata bytes. -/
theorem getElem?_packetBytes_metadata (h : steps.length = 7) (md : Metadata) (j : Nat) :
    (packetBytes steps md)[56 + j]? = md.bytes[j]? := by
  have hl : (steps.flatMap fun x => le 8 x.pay).length = 56 := by rw [length_records, h]
  rw [packetBytes, List.getElem?_append_right (by omega), hl, Nat.add_sub_cancel_left]

/-! ### The bytes determine payloads and Metadata (42_packet_assembler.md R124) -/

theorem metadataBytes_injective (h : md.bytes = md'.bytes) : md = md' := by
  cases md
  cases md'
  simpa [Metadata.bytes] using h

/-- Records of eight bytes each: cutting off the first one determines its payload, and the rest follows. -/
theorem records_injective {ps qs : List (BitVec 64)} (h : ps.flatMap (le 8) = qs.flatMap (le 8)) : ps = qs := by
  induction ps generalizing qs with
  | nil =>
    cases qs with
    | nil => rfl
    | cons q qs => exact absurd (congrArg List.length h) (by simp; omega)
  | cons p ps ih =>
    cases qs with
    | nil => exact absurd (congrArg List.length h) (by simp)
    | cons q qs =>
      obtain ⟨hhead, htail⟩ := List.append_inj h (by rw [length_le, length_le])
      rw [le_injective (w := 8) hhead, ih htail]

/-- A packet sees of its slots the payloads alone. -/
theorem packetBytes_eq_payloads (steps : List StepSlot) (md : Metadata) :
    packetBytes steps md = (steps.map StepSlot.pay).flatMap (le 8) ++ md.bytes := by
  rw [List.flatMap_map, packetBytes]

/-- Two packets are the same bytes exactly for the same payloads and the same Metadata. -/
theorem packetBytes_eq_iff : packetBytes steps' md' = packetBytes steps md ↔
    steps'.map StepSlot.pay = steps.map StepSlot.pay ∧ md' = md := by
  rw [packetBytes_eq_payloads, packetBytes_eq_payloads]
  constructor
  · intro h
    obtain ⟨hrecords, hmeta⟩ := List.append_inj' h rfl
    exact ⟨records_injective hrecords, metadataBytes_injective hmeta⟩
  · rintro ⟨hpay, rfl⟩
    rw [hpay]

/-! ### What an ASM leaves behind -/

/-- The request of seven slots has the word 0x87 (30_encoding.md R85). -/
theorem asm_word (h : steps.length = 7) (md : Metadata) : (Instr.asm steps md).command.word = 0x87#8 := by
  rw [Instr.command, h]
  rfl

/-- An ASM of seven defined slots completes: BUF's offsets 0 to 63 hold the packet, which is the response, those from 64 on
what they held, OFF is 64, and nothing else differs. -/
theorem execAsm_packable_outcome (h : Packable steps) (md : Metadata) (s : State) :
    ∃ t, exec (.asm steps md) s = .next t ∧ (∀ k < 64, t.buf.read k = (packetBytes steps md)[k]?) ∧
      (∀ a, 64 ≤ a → t.buf.read a = s.buf.read a) ∧ Succeeded .buf (packetBytes steps md) t ∧ OnlyBuf s t ∧
      t.mcopy = s.mcopy ∧ t.acc = s.acc ∧ t.off = 64#7 := by
  have hl := length_packetBytes_packable h md
  refine ⟨_, execAsm_packable h md s, fun k hk => ?_, fun a ha => ?_, succeed_succeeded .buf _ _,
    OnlyBuf.succeed ⟨rfl, rfl, rfl, rfl, rfl, rfl, rfl, rfl⟩, rfl, rfl, rfl⟩
  · exact (Memory.read_writeBytes _ _ _ k).trans (if_pos (by omega))
  · exact (Memory.read_writeBytes _ _ _ a).trans (if_neg (by omega))

/-- On seven defined slots `Ok(B)` is answered from every state exactly when `B` is the packet. -/
theorem asm_answers_iff (h : Packable steps) (md : Metadata) (B : List Byte) :
    (∀ s, ∃ t, exec (.asm steps md) s = .next t ∧ t.response = some (.ok B)) ↔ packetBytes steps md = B := by
  constructor
  · intro hall
    obtain ⟨t, ht, hB⟩ := hall State.reset
    cases (execAsm_packable h md State.reset).symm.trans ht
    exact Response.ok.inj (Option.some.inj hB)
  · rintro rfl s
    exact ⟨_, execAsm_packable h md s, rfl⟩

end

/-! ### The obligations -/

/-- Settles O25: BUF holds the packet from offset 0 on, and the packet's bytes lie at R60's offsets. -/
theorem asmPlacesRecordsAndMetadata : Obligations.AsmPlacesRecordsAndMetadata := by
  unfold Obligations.AsmPlacesRecordsAndMetadata
  intro steps md s h
  obtain ⟨t, ht, hread, habove, hok, hframe⟩ := execAsm_packable_outcome h md s
  refine ⟨asm_word h.1 md, t, packetBytes steps md, ht, fun i j x hx hj => ?_, fun j hj => ?_, hok,
    length_packetBytes_packable h md, hread, habove, hframe⟩
  · obtain ⟨hi, _⟩ := List.getElem?_eq_some_iff.mp hx
    rw [h.1] at hi
    exact (hread _ (by omega)).trans (getElem?_packetBytes_record hx hj md)
  · exact (hread _ (by omega)).trans (getElem?_packetBytes_metadata h.1 md j)

/-- Settles O26: a step list is packable, of another count, or has a reserved slot, and each has its answer. -/
theorem asmOutcomeFromTheRequest : Obligations.AsmOutcomeFromTheRequest := by
  unfold Obligations.AsmOutcomeFromTheRequest
  intro steps md s
  rcases packet_cases steps with h | h | h
  · have hnone : ¬ ∃ x ∈ steps, ¬ slotDefined x := fun ⟨x, hx, hn⟩ => hn (h.2 x hx)
    exact ⟨_, execAsm_packable h md s, by rw [if_neg (not_not.mpr h.1), if_neg hnone]; rfl⟩
  · exact ⟨_, execAsm_wrongCount h md s, by rw [if_pos h]; rfl⟩
  · obtain ⟨i, _, he⟩ := execAsm_reserved h md s
    exact ⟨_, he, by rw [if_neg (not_not.mpr h.1), if_pos h.2]; rfl⟩

/-- Settles O27: the answer is the packet, which determines and is determined by payloads and Metadata. -/
theorem lawsOfAsm : Obligations.LawsOfAsm := by
  unfold Obligations.LawsOfAsm
  intro steps md h
  refine ⟨packetBytes steps md, (asm_answers_iff h md _).mpr rfl, length_packetBytes_packable h md,
    fun i j x hx hj => getElem?_packetBytes_record hx hj md, fun j _ => getElem?_packetBytes_metadata h.1 md j,
    fun steps' md' h' => ?_⟩
  exact (asm_answers_iff h' md' _).trans packetBytes_eq_iff

end Sys2Proof.Machine
end

section
/-! SUPPORT. The patched packet and its checksum, what a FRAME of seven defined slots leaves behind and what its Ok tells;
then the obligations of 43_checksum_framer.md. -/

namespace Sys2Proof.Machine

section

variable {bs : List Byte} {steps : List StepSlot}

/-! ### The checksum as a sum (43_checksum_framer.md R133, R134) -/

theorem checksum_toNat (bs : List Byte) : (checksum bs).toNat = byteSum bs % 65536 := by
  rw [checksum_eq, BitVec.toNat_ofNat]

/-- Up to 257 bytes the sum does not wrap (43_checksum_framer.md R135). -/
theorem checksum_toNat_of_length_le (h : bs.length ≤ 257) : (checksum bs).toNat = byteSum bs := by
  have hle := byteSum_le bs
  rw [checksum_toNat, Nat.mod_eq_of_lt (by omega)]

/-- The order of the bytes does not matter to the sum (43_checksum_framer.md R137). -/
theorem checksum_perm {bs' : List Byte} (h : bs.Perm bs') : checksum bs = checksum bs' := by
  rw [checksum_eq, checksum_eq, byteSum, byteSum, (h.map BitVec.toNat).sum_eq]

theorem checksum_eq_of_bytes {c c' : BitVec 16} (hhigh : highByte c = highByte c') (hlow : lowByte c = lowByte c') :
    c = c' := by
  apply BitVec.eq_of_toNat_eq
  rw [← checksum_bytes c, ← checksum_bytes c', hhigh, hlow]

theorem byteSum_cons (b : Byte) (bs : List Byte) : byteSum (b :: bs) = b.toNat + byteSum bs := List.sum_cons

/-- Changing exactly one byte changes the sum over the integers. -/
theorem byteSum_ne_of_one_change {xs ys : List Byte} {k : Nat} (hl : xs.length = ys.length) (hk : xs[k]? ≠ ys[k]?)
    (hrest : ∀ j, j ≠ k → xs[j]? = ys[j]?) : byteSum xs ≠ byteSum ys := by
  induction xs generalizing ys k with
  | nil =>
    cases ys with
    | nil => exact absurd rfl hk
    | cons y ys => cases hl
  | cons x xs ih =>
    cases ys with
    | nil => cases hl
    | cons y ys =>
      rw [byteSum_cons, byteSum_cons]
      cases k with
      | zero =>
        have htail : xs = ys := List.ext_getElem? fun j => hrest (j + 1) (by omega)
        have hhead : x.toNat ≠ y.toNat := fun h => hk (congrArg some (BitVec.eq_of_toNat_eq h))
        rw [htail]
        omega
      | succ k =>
        have hhead : x = y := Option.some.inj (hrest 0 (by omega))
        have htail := ih (Nat.succ.inj hl) hk fun j hj => hrest (j + 1) (by omega)
        rw [hhead]
        omega

/-! ### The patched packet (43_checksum_framer.md R142) -/

theorem take_patched (h : bs.length = 64) : (patched bs).take 62 = bs.take 62 :=
  List.take_left' (by rw [List.length_take, h]; rfl)

/-- A second patch changes nothing: the bytes summed are not those replaced (43_checksum_framer.md R138). -/
theorem patched_patched (h : bs.length = 64) : patched (patched bs) = patched bs := by
  rw [patched, take_patched h, ← patched]

theorem getElem?_patched_of_lt (h : bs.length = 64) {k : Nat} (hk : k < 62) : (patched bs)[k]? = bs[k]? := by
  rw [← List.getElem?_take_of_lt hk, take_patched h, List.getElem?_take_of_lt hk]

/-- Bytes that a patch leaves as they are end in the checksum of the others, big-endian (43_checksum_framer.md R141). -/
theorem drop_of_patched_eq (h : bs.length = 64) (hp : patched bs = bs) :
    bs.drop 62 = [highByte (checksum (bs.take 62)), lowByte (checksum (bs.take 62))] :=
  (congrArg (List.drop 62) hp.symm).trans (List.drop_left' (by rw [List.length_take, h]; rfl))

theorem getElem?_high_of_patched_eq (h : bs.length = 64) (hp : patched bs = bs) :
    bs[62]? = some (highByte (checksum (bs.take 62))) :=
  calc bs[62]?
    _ = (bs.drop 62)[0]? := by rw [List.getElem?_drop]
    _ = _ := by rw [drop_of_patched_eq h hp]; rfl

theorem getElem?_low_of_patched_eq (h : bs.length = 64) (hp : patched bs = bs) :
    bs[63]? = some (lowByte (checksum (bs.take 62))) :=
  calc bs[63]?
    _ = (bs.drop 62)[1]? := by rw [List.getElem?_drop]
    _ = _ := by rw [drop_of_patched_eq h hp]; rfl

/-! ### What a FRAME leaves behind -/

/-- The 64 bytes a FRAME of seven defined slots answers (43_checksum_framer.md R131); `execFrame_packable_outcome` ties them
to FRAME. -/
def framedBytes (steps : List StepSlot) (md : Metadata) : List Byte := patched (packetBytes steps (zeroChecksum md))

/-- The request of seven slots has the word 0xC7 (30_encoding.md R85). -/
theorem frame_word (h : steps.length = 7) (md : Metadata) : (Instr.frame steps md).command.word = 0xC7#8 := by
  rw [Instr.command, h]
  rfl

theorem length_framedBytes (h : Packable steps) (md : Metadata) : (framedBytes steps md).length = 64 :=
  length_patched (length_packetBytes_packable h _)

/-- The framed bytes carry the checksum of their own first 62 bytes. -/
theorem patched_framedBytes (h : Packable steps) (md : Metadata) : patched (framedBytes steps md) = framedBytes steps md :=
  patched_patched (length_packetBytes_packable h _)

/-- A FRAME of seven defined slots completes: BUF's offsets 0 to 63 hold the framed bytes, which are the response, those from
64 on what they held, the hidden registers what R130 gives them, and nothing else differs. -/
theorem execFrame_packable_outcome (h : Packable steps) (md : Metadata) (s : State) :
    ∃ t, exec (.frame steps md) s = .next t ∧ (∀ k < 64, t.buf.read k = (framedBytes steps md)[k]?) ∧
      (∀ a, 64 ≤ a → t.buf.read a = s.buf.read a) ∧ Succeeded .buf (framedBytes steps md) t ∧ OnlyBuf s t ∧
      t.mcopy = zeroChecksum md ∧ t.acc = checksum ((framedBytes steps md).take 62) ∧ t.off = 64#7 := by
  have hl := length_packetBytes_packable h (zeroChecksum md)
  refine ⟨_, execFrame_packable h md s, read_patch s.buf hl, fun a ha => ?_, succeed_succeeded .buf _ _,
    OnlyBuf.succeed ⟨rfl, rfl, rfl, rfl, rfl, rfl, rfl, rfl⟩, rfl, congrArg checksum (take_patched hl).symm, rfl⟩
  calc
    _ = (s.buf.writeBytes 0 (packetBytes steps (zeroChecksum md))).read a :=
      (Memory.read_writeBytes _ _ 62 a).trans (if_neg (by simp only [List.length_cons, List.length_nil]; omega))
    _ = s.buf.read a := (Memory.read_writeBytes _ _ 0 a).trans (if_neg (by omega))

/-- FRAME sees of the Metadata only what is left with bytes 6 and 7 zeroed (43_checksum_framer.md R139). -/
theorem exec_frame_congr {md md' : Metadata} (h : zeroChecksum md = zeroChecksum md') (steps : List StepSlot) (s : State) :
    exec (.frame steps md) s = exec (.frame steps md') s := by
  rw [exec, exec, execFrame, execFrame, h]

/-- Only seven defined slots are answered with an Ok, so the bytes of an Ok are 64 and carry their own checksum
(43_checksum_framer.md R140, R141). -/
theorem patched_of_frame_ok {md : Metadata} {s t : State} (ht : exec (.frame steps md) s = .next t)
    (hok : t.response = some (.ok bs)) : bs.length = 64 ∧ patched bs = bs := by
  rcases packet_cases steps with h | h | h
  · cases (execFrame_packable h md s).symm.trans ht
    cases hok
    exact ⟨length_framedBytes h md, patched_framedBytes h md⟩
  · cases (execFrame_wrongCount h md s).symm.trans ht
    cases hok
  · obtain ⟨i, _, he⟩ := execFrame_reserved h md s
    cases he.symm.trans ht
    cases hok

end

/-! ### The obligations -/

/-- Settles O31: the outcome of a FRAME of seven defined slots; below offset 62 its bytes are the packet's, at 62 and 63 the
sum's. -/
theorem frameResultIsThePacketWithItsChecksum : Obligations.FrameResultIsThePacketWithItsChecksum := by
  unfold Obligations.FrameResultIsThePacketWithItsChecksum
  intro steps md s h
  have hl := length_framedBytes h md
  have hself := patched_framedBytes h md
  have hpacket {k : Nat} (hk : k < 62) : (framedBytes steps md)[k]? = (packetBytes steps (zeroChecksum md))[k]? :=
    getElem?_patched_of_lt (length_packetBytes_packable h _) hk
  obtain ⟨t, ht, hread, habove, hok, hframe, hmcopy, hacc, hoff⟩ := execFrame_packable_outcome h md s
  have hsum := checksum_toNat ((framedBytes steps md).take 62)
  refine ⟨frame_word h.1 md, t, framedBytes steps md, _, _, ht, hok, hl, hread, fun i j x hx hj => ?_,
    fun j hj => ?_, getElem?_high_of_patched_eq hl hself, getElem?_low_of_patched_eq hl hself,
    by rw [checksum_bytes, hsum], habove, hframe, by rw [hacc, hsum], hoff, hmcopy⟩
  · obtain ⟨hi, _⟩ := List.getElem?_eq_some_iff.mp hx
    rw [h.1] at hi
    exact (hpacket (by omega)).trans (getElem?_packetBytes_record hx hj _)
  · calc (framedBytes steps md)[56 + j]?
      _ = (packetBytes steps (zeroChecksum md))[56 + j]? := hpacket (by omega)
      _ = (zeroChecksum md).bytes[j]? := getElem?_packetBytes_metadata h.1 _ j
      _ = md.bytes[j]? := by interval_cases j <;> rfl

/-- Settles O32: a step list is packable, of another count, or has a reserved slot, and FRAME answers each as ASM does but
for the patch. -/
theorem frameOutcomeFromTheRequest : Obligations.FrameOutcomeFromTheRequest := by
  unfold Obligations.FrameOutcomeFromTheRequest
  intro steps md s
  rcases packet_cases steps with h | h | h
  · have hnone : ¬ ∃ x ∈ steps, ¬ slotDefined x := fun ⟨x, hx, hn⟩ => hn (h.2 x hx)
    exact ⟨_, execFrame_packable h md s, by rw [if_neg (not_not.mpr h.1), if_neg hnone]; rfl, fun hn => absurd h hn⟩
  · exact ⟨_, execFrame_wrongCount h md s, by rw [if_pos h]; rfl,
      fun _ => ⟨(raise_failed .buf _ _).flag, rfl, _, execAsm_wrongCount h md s, rfl⟩⟩
  · obtain ⟨i, _, he⟩ := execFrame_reserved h md s
    obtain ⟨i', _, he'⟩ := execAsm_reserved h md s
    exact ⟨_, he, by rw [if_neg (not_not.mpr h.1), if_pos h.2]; rfl,
      fun _ => ⟨(raise_failed .buf _ _).flag, rfl, _, he', rfl⟩⟩

/-- Settles O33: at most 62 bytes of at most 255 are summed. -/
theorem checksumNeverWraps : Obligations.ChecksumNeverWraps := by
  unfold Obligations.ChecksumNeverWraps
  intro steps md s h
  obtain ⟨t, ht, _, _, hok, _⟩ := execFrame_packable_outcome h md s
  have hl := length_framedBytes h md
  have hself := patched_framedBytes h md
  have hplain : ∀ n ≤ 62, (checksum ((framedBytes steps md).take n)).toNat = byteSum ((framedBytes steps md).take n) :=
    fun n hn => checksum_toNat_of_length_le (by rw [List.length_take]; omega)
  have hvalue := (checksum_bytes (checksum ((framedBytes steps md).take 62))).trans (hplain 62 le_rfl)
  have hbound := byteSum_le ((framedBytes steps md).take 62)
  rw [List.length_take, hl] at hbound
  exact ⟨t, framedBytes steps md, _, _, ht, hok.response, hplain, getElem?_high_of_patched_eq hl hself,
    getElem?_low_of_patched_eq hl hself, hvalue, hbound, by omega, by omega⟩

/-- Settles O34: the two requests are one to FRAME, and its response depends on the request alone. -/
theorem frameIgnoresMetadataChecksumBytes : Obligations.FrameIgnoresMetadataChecksumBytes := by
  unfold Obligations.FrameIgnoresMetadataChecksumBytes
  intro steps md b6 b7 s s'
  obtain ⟨t, t', ht, ht', hresponse, _⟩ := responseDependsOnTheRequestAlone (.frame steps md) s s'
  exact ⟨t, t', ht, (exec_frame_congr rfl steps s').trans ht', hresponse.symm⟩

/-- Settles O35: the outcome of a FRAME names the same bytes from every state, and the fed back checksum is zeroed. -/
theorem frameIsIdempotent : Obligations.FrameIsIdempotent := by
  unfold Obligations.FrameIsIdempotent
  intro steps md s h
  have hl := length_framedBytes h md
  have hself := patched_framedBytes h md
  obtain ⟨t, ht, hread, _, hok, _⟩ := execFrame_packable_outcome h md s
  obtain ⟨u, hu, hread', _, hok', _⟩ := execFrame_packable_outcome h md t
  have hsame : ∀ k < 64, u.buf.read k = t.buf.read k := fun k hk => (hread' k hk).trans (hread k hk).symm
  exact ⟨t, framedBytes steps md, _, _, ht, hok.response, getElem?_high_of_patched_eq hl hself,
    getElem?_low_of_patched_eq hl hself, ⟨u, hu, hok'.response, hsame⟩,
    ⟨u, (exec_frame_congr rfl steps t).trans hu, hok'.response, hsame⟩⟩

/-- Settles O36: equal checksum bytes are equal sums, and neither sum wraps. -/
theorem singleByteChangeChangesTheChecksum : Obligations.SingleByteChangeChangesTheChecksum := by
  unfold Obligations.SingleByteChangeChangesTheChecksum
  rintro steps steps' md md' s s' t t' B B' k ht hok ht' hok' hk hne hrest ⟨hhigh, hlow⟩
  obtain ⟨hl, hself⟩ := patched_of_frame_ok ht hok
  obtain ⟨hl', hself'⟩ := patched_of_frame_ok ht' hok'
  have hchecksum : checksum (B.take 62) = checksum (B'.take 62) := by
    rw [getElem?_high_of_patched_eq hl hself, getElem?_high_of_patched_eq hl' hself'] at hhigh
    rw [getElem?_low_of_patched_eq hl hself, getElem?_low_of_patched_eq hl' hself'] at hlow
    exact checksum_eq_of_bytes (Option.some.inj hhigh) (Option.some.inj hlow)
  have hsum : byteSum (B.take 62) = byteSum (B'.take 62) := by
    rw [← checksum_toNat_of_length_le (by simp), hchecksum, checksum_toNat_of_length_le (by simp)]
  refine byteSum_ne_of_one_change (k := k) (by simp [hl, hl']) ?_ (fun j hj => ?_) hsum
  · rwa [List.getElem?_take_of_lt hk, List.getElem?_take_of_lt hk]
  · rw [List.getElem?_take, List.getElem?_take]
    split
    · exact hrest j ‹_› hj
    · rfl

/-- Settles O37: the last two bytes are those of the sum, which no reordering changes. -/
theorem reorderedBytesKeepTheChecksum : Obligations.ReorderedBytesKeepTheChecksum := by
  unfold Obligations.ReorderedBytesKeepTheChecksum
  intro steps steps' md md' s s' t t' B B' ht hok ht' hok' hperm
  obtain ⟨hl, hself⟩ := patched_of_frame_ok ht hok
  obtain ⟨hl', hself'⟩ := patched_of_frame_ok ht' hok'
  rw [drop_of_patched_eq hl hself, drop_of_patched_eq hl' hself', checksum_perm hperm]

/-- Settles O38: each slot's record is its payload's image, so the packet is the records and the Metadata. -/
theorem frameIsThePatchedAssembly : Obligations.FrameIsThePatchedAssembly := by
  unfold Obligations.FrameIsThePatchedAssembly
  intro steps md s h
  have hrecords : List.Forall₂ (fun (x : StepSlot) r => renc x.tag x.pay = .ok r) steps (steps.map fun x => le 8 x.pay) :=
    List.forall₂_map_right_iff.mpr (List.forall₂_same.mpr fun x hx => renc_defined (h.2 x hx))
  have hpacket : packetBytes steps (zeroChecksum md) =
      (steps.map fun x => le 8 x.pay).flatten ++ (zeroChecksum md).bytes := by
    rw [packetBytes, List.flatMap_def]
  exact ⟨_, _, packetBytes steps (zeroChecksum md), _, hrecords, hpacket, execAsm_packable h _ s, rfl,
    execFrame_packable h md s, rfl⟩

end Sys2Proof.Machine
end

section
/-! SUPPORT. What the shared error entry leaves alone, which requests raise which error, and what a step does with a reserved
word, an incomplete request and no input; then the obligations of 60_exceptions.md. -/

namespace Sys2Proof.Machine

section

variable {s t : State} {r r' : ResultReg} {e : CoreError} {i : Instr} {bs : List Byte}

/-! ### Error entry (60_exceptions.md R157) -/

theorem raise_space_of_ne (h : r' ≠ r) (e : CoreError) (s : State) : (raise r e s).space r' = s.space r' := by
  revert h; cases r <;> cases r' <;> simp

theorem raise_isValid_of_ne (h : r' ≠ r) (e : CoreError) (s : State) : (raise r e s).isValid r' = s.isValid r' := by
  simp [h.symm]

/-- VLEN goes with VOUT and with no other result register (10_state.md R30). -/
theorem raise_vlen_of_ne_vout (h : r ≠ .vout) (e : CoreError) (s : State) : (raise r e s).vlen = s.vlen := by
  cases r with
  | vout => exact absurd rfl h
  | record => rfl
  | buf => rfl

/-- ERR's word for a wrong count as R152 writes it; only the count's low four bits enter. -/
theorem errWord_invalidStepCount (n : Nat) :
    (CoreError.invalidStepCount n).errWord = (BitVec.ofNat 8 n <<< 4) ||| 0x02#8 := by
  have hlow : ∀ v : BitVec 8, (v.setWidth 4 ++ 0#2 ++ 2#2 : BitVec 8) = (v <<< 4) ||| 0x02#8 := by decide
  have hn : BitVec.ofNat 4 n = (BitVec.ofNat 8 n).setWidth 4 := (BitVec.setWidth_ofNat_of_le (by omega) n).symm
  rw [CoreError.errWord, CoreError.actualField, CoreError.code, hn, hlow]

/-! ### Which requests raise which error (60_exceptions.md R151, R152) -/

/-- The requests that raise an error, each with the error it raises; `raises_of_exec` ties them to `exec`. -/
inductive Raises : Instr → CoreError → Prop where
  | rencC (pay : BitVec 64) : Raises (.rencC pay) (.malformedRecord 0)
  | rencD (pay : BitVec 64) : Raises (.rencD pay) (.malformedRecord 0)
  | asmCount (steps : List StepSlot) (md : Metadata) (h : steps.length ≠ 7) :
    Raises (.asm steps md) (.invalidStepCount steps.length)
  | frameCount (steps : List StepSlot) (md : Metadata) (h : steps.length ≠ 7) :
    Raises (.frame steps md) (.invalidStepCount steps.length)
  | asmReserved (steps : List StepSlot) (md : Metadata) (h : HasReserved steps) : Raises (.asm steps md) (.malformedRecord 0)
  | frameReserved (steps : List StepSlot) (md : Metadata) (h : HasReserved steps) :
    Raises (.frame steps md) (.malformedRecord 0)

/-- An operation known to succeed answers no error. -/
theorem response_ne_err_of_succeed {u : State} (ht : exec i s = .next t) (hok : exec i s = .next (succeed r bs u)) :
    t.response ≠ some (.err e) := by
  cases hok.symm.trans ht
  rintro ⟨⟩

/-- An operation known to raise an error answers that one. -/
theorem error_eq_of_raise {e' : CoreError} {u : State} (ht : exec i s = .next t) (hx : t.response = some (.err e))
    (herr : exec i s = .next (raise r e' u)) : e = e' := by
  cases herr.symm.trans ht
  cases hx
  rfl

/-- No error is answered but by the requests that raise it. -/
theorem raises_of_exec (ht : exec i s = .next t) (hx : t.response = some (.err e)) : Raises i e := by
  cases i with
  | venc1 v => exact absurd hx (response_ne_err_of_succeed ht (encodeValue_eq 1 v s))
  | venc2 v => exact absurd hx (response_ne_err_of_succeed ht (encodeValue_eq 2 v s))
  | venc4 v => exact absurd hx (response_ne_err_of_succeed ht (encodeValue_eq 4 v s))
  | venc8 v => exact absurd hx (response_ne_err_of_succeed ht (encodeValue_eq 8 v s))
  | rencTcs pay => exact absurd hx (response_ne_err_of_succeed ht (execRencTcs_eq pay s))
  | rencRqw pay => exact absurd hx (response_ne_err_of_succeed ht (execRencRqw_eq pay s))
  | rencC pay =>
    obtain rfl := error_eq_of_raise ht hx (execRencC_eq pay s)
    exact .rencC pay
  | rencD pay =>
    obtain rfl := error_eq_of_raise ht hx (execRencD_eq pay s)
    exact .rencD pay
  | asm steps md =>
    rcases packet_cases steps with h | h | h
    · exact absurd hx (response_ne_err_of_succeed ht (execAsm_packable h md s))
    · obtain rfl := error_eq_of_raise ht hx (execAsm_wrongCount h md s)
      exact .asmCount steps md h
    · obtain ⟨_, _, he⟩ := execAsm_reserved h md s
      obtain rfl := error_eq_of_raise ht hx he
      exact .asmReserved steps md h
  | frame steps md =>
    rcases packet_cases steps with h | h | h
    · exact absurd hx (response_ne_err_of_succeed ht (execFrame_packable h md s))
    · obtain rfl := error_eq_of_raise ht hx (execFrame_wrongCount h md s)
      exact .frameCount steps md h
    · obtain ⟨_, _, he⟩ := execFrame_reserved h md s
      obtain rfl := error_eq_of_raise ht hx he
      exact .frameReserved steps md h

/-! ### A request that starts no operation (60_exceptions.md R154, R167) -/

theorem decode_reservedWord {c : Byte} (h : decodeCommand c = none) (operands : List Byte) :
    decode (c :: operands) = .reservedWord c := by
  simp only [decode, h]

theorem serve_reservedWord {c : Byte} (h : decode bs = .reservedWord c) (s : State) :
    serve bs s = .next (takeIllegalCommand s) := by
  simp only [serve, h]

theorem serve_operandMissing {c : Command} (h : decode bs = .operandMissing c) (s : State) :
    serve bs s = .refused .operandMissing := by
  simp only [serve, h]

theorem serve_nil (s : State) : serve [] s = .refused .noCommandWord := rfl

theorem step_idle (h : s.inputs = []) : step s = .next s := by
  simp only [step, takeNext, h]

end

/-! ### The obligations -/

/-- Settles O28: a wrong count is raised before anything is written but FRAME's MCOPY, and of the requests that raise an error
only those of a wrong count raise this one. -/
theorem invalidStepCountIsRaisedAndRecorded : Obligations.InvalidStepCountIsRaisedAndRecorded := by
  unfold Obligations.InvalidStepCountIsRaisedAndRecorded
  refine ⟨fun n => ⟨rfl, rfl⟩, fun steps md s _ h => ⟨?_, ?_⟩, fun i s t n ht hx => ?_⟩
  · have ht := execAsm_wrongCount h md s
    obtain ⟨hframe, hmcopy, hacc⟩ := operationsWriteOnlyTheirOwnRegisters (.asm steps md) s _ ht
    exact ⟨_, ht, raise_failed .buf _ s, errWord_invalidStepCount _, hframe, hmcopy, hacc, raise_off .buf _ s⟩
  · have ht := execFrame_wrongCount h md s
    have hframe := operationsWriteOnlyTheirOwnRegisters (.frame steps md) s _ ht
    exact ⟨_, ht, raise_failed .buf _ _, errWord_invalidStepCount _, hframe, raise_acc .buf _ _, raise_off .buf _ _⟩
  · cases raises_of_exec ht hx with
    | asmCount steps md h => exact ⟨h, steps, md, rfl, .inl rfl⟩
    | frameCount steps md h => exact ⟨h, steps, md, rfl, .inr rfl⟩

/-- Settles O29: a reserved variant's record is empty, wherever it is encoded, and of the requests that raise an error only
those that encode one raise this one. -/
theorem malformedRecordIsRaisedAndRecorded : Obligations.MalformedRecordIsRaisedAndRecorded := by
  unfold Obligations.MalformedRecordIsRaisedAndRecorded
  refine ⟨fun n => ⟨rfl, rfl⟩, fun pay s => ⟨?_, ?_⟩, fun steps md s h => ⟨?_, ?_⟩, fun i s t n ht hx => ?_⟩
  · exact ⟨_, execRencC_eq pay s, raise_failed .record _ s, rfl⟩
  · exact ⟨_, execRencD_eq pay s, raise_failed .record _ s, rfl⟩
  · obtain ⟨_, _, ht⟩ := execAsm_reserved h md s
    exact ⟨_, ht, raise_failed .buf _ _, rfl, operationsWriteOnlyTheirOwnRegisters (.asm steps md) s _ ht⟩
  · obtain ⟨_, _, ht⟩ := execFrame_reserved h md s
    have hframe := operationsWriteOnlyTheirOwnRegisters (.frame steps md) s _ ht
    exact ⟨_, ht, raise_failed .buf _ _, rfl, hframe, raise_acc .buf _ _⟩
  · cases raises_of_exec ht hx with
    | rencC pay => exact ⟨rfl, .inl ⟨pay, rfl⟩⟩
    | rencD pay => exact ⟨rfl, .inr (.inl ⟨pay, rfl⟩)⟩
    | asmReserved steps md h => exact ⟨rfl, .inr (.inr ⟨steps, md, h, .inl rfl⟩)⟩
    | frameReserved steps md h => exact ⟨rfl, .inr (.inr ⟨steps, md, h, .inr rfl⟩)⟩

/-- Settles O40: every operation has an effect with a possible response, and ends with that response. -/
theorem everyOperationEndsInAResponse : Obligations.EveryOperationEndsInAResponse := by
  unfold Obligations.EveryOperationEndsInAResponse
  intro i s hi
  obtain ⟨x, hx, hall⟩ := exec_effect i
  obtain ⟨t, ht, he⟩ := hall s
  have hend := he.endedWith
  exact ⟨t, x, ht, hend.response, hx hi, hend.err⟩

/-- Settles O6: R89's condition is the decoder's, and a request it calls reserved takes IllegalCommand's effect. -/
theorem reservedWordOnlyRaisesIllegalCommand : Obligations.ReservedWordOnlyRaisesIllegalCommand := by
  unfold Obligations.ReservedWordOnlyRaisesIllegalCommand
  intro s c operands rest hin hreserved
  have hdec := decode_reservedWord ((decodeCommand_eq_none_iff c).mpr hreserved) operands
  rw [step_request hin, serve_reservedWord hdec]
  rfl

/-- Settles O7: a step serves the request, and serving one that does not decode is the refusal of its kind. -/
theorem incompleteRequestIsRefused : Obligations.IncompleteRequestIsRefused := by
  unfold Obligations.IncompleteRequestIsRefused
  intro s bs rest hin
  rw [step_request hin]
  refine ⟨fun c hdec => serve_operandMissing hdec _, ?_⟩
  rintro rfl
  exact serve_nil _

/-- Settles O8: with no input the step takes its idle branch. -/
theorem idleStepChangesNothing : Obligations.IdleStepChangesNothing := by
  unfold Obligations.IdleStepChangesNothing
  exact fun _ hin => step_idle hin

/-- Settles O30: error entry field by field, ERR's fields being those of the error's word. -/
theorem errorEntryClearsOnlyTheOwnRegister : Obligations.ErrorEntryClearsOnlyTheOwnRegister := by
  unfold Obligations.ErrorEntryClearsOnlyTheOwnRegister
  intro r e s
  refine ⟨raise_failed r e s, errCode_errWord e, errActual_errWord e, errZero_errWord e,
    fun r' hr => ⟨raise_isValid_of_ne hr e s, raise_space_of_ne hr e s⟩, fun hr => raise_vlen_of_ne_vout hr e s,
    ?_, raise_mcopy r e s, raise_acc r e s, raise_off r e s, raise_readData r e s, raise_inputs r e s⟩
  rw [raise_valid, validZero_validClear]

end Sys2Proof.Machine
end
